-- ==== Sys2Proof/Word.lean ====
section
/-! DEFINITION. The value types of the block: bits, bit sequences, bytes, operation codes, and the host's raw bits.
A bit sequence is a list whose index 0 is the most significant bit (00_scope.md R9, 20_memory.md R41). -/

namespace Sys2Proof

/-- A bit is one of two values (00_scope.md R8). -/
abbrev Bit := Bool

/-- A bit sequence, most significant bit first: the element at index `i` is the spec's `v<i>` and `v[L-1-i]` (R9). -/
abbrev Bits := List Bit

/-- A character of a string port (20_memory.md R42). -/
abbrev Byte := BitVec 8

/-- The level of the port `OP[4:0]` (30_encoding.md R60). -/
abbrev OpCode := BitVec 5

/-- What a host may offer where a bit is asked for: a strict Boolean, or anything else (10_state.md R23). -/
inductive RawBit where
  /-- A strict Boolean: the only thing a two-valued wire can carry. -/
  | bool (b : Bit)
  /-- Every non-Boolean thing; it leads to InvalidBitError at the boundary (60_exceptions.md R201). -/
  | other
deriving DecidableEq, Repr

end Sys2Proof
end

