-- ==== Sys2Proof/Config.lean ====
section
/-! DEFINITION. The parameters of one instance of the block (00_scope.md R7). They are OPEN: a step takes them as an
argument (they travel in `State.params`, log 2), so a statement for every state holds for every instance. The spec leaves
no result of an operation open, so there is no free value here. -/

namespace Sys2Proof

/-- "constants of an instance, fixed before the first request and never changed" (10_state.md R31). -/
structure Params where
  /-- `WMAX`: the largest width of a value that the ports can carry (D3). -/
  wmax : Nat
  /-- `NW`: the width of the integer ports (D4). -/
  nw : Nat
  /-- `SMAX`: the number of character positions of the string port; a string may still have any length (D5, log 10). -/
  smax : Nat
  /-- `SIGNED_OVF_CHECK`: whether signed ADD raises OverflowError on a true signed overflow (D8). -/
  signedOvfCheck : Bool
deriving DecidableEq, Repr

/-- The constraints of R7 and 70_reset_and_hazards.md R232 (a). -/
def Params.wf (p : Params) : Bool :=
  decide (1 ≤ p.wmax) && decide (2 ≤ p.nw) && decide (p.wmax ≤ p.smax)

/-- The instance that `State.reset` stands for. `NW = 64` and `SIGNED_OVF_CHECK = true` are the spec's reference values
(R7); `WMAX = 64` and `SMAX = 65` are a DESIGN CHOICE (log 2), unsafe for a claim about this instance only: the least
sizes that carry every request line of 95_test_vectors.md. -/
def Params.reference : Params := { wmax := 64, nw := 64, smax := 65, signedOvfCheck := true }

end Sys2Proof
end

