-- ==== Sys2Proof/Syntax.lean ====
section
/-! DEFINITION. The syntax of the block: its 22 operations (30_encoding.md R61), the request format `REQ` (R60, the input
ports of 10_state.md R26), the BitSequence value (R21), and the typed request lines of R70. -/

namespace Sys2Proof

/-- The operations, one constructor per row of spec/opcode_table.json. An operation has no operands of its own: "a decoder
reads `OP` and nothing else to know the operation" (R60); its operands stand on the ports that R62 names. -/
inductive Instr where
  | xor
  | hadd
  | fadd
  | radd
  | inv
  | tcn
  | rsub
  | enc
  | dec
  | bounds
  | rchk
  | newi
  | news
  | newb
  | tostr
  | toint
  | bits
  | add
  | sub
  | eq
  | gt
  | lt
deriving DecidableEq, Repr

/-- A request: the level of every input port at one moment (R26, R60). A bus is listed from wire 0 (weight `2^0`) upward;
a wire that a list does not reach is at level 0 (log 11). A bit is what the host offers for it, a `RawBit` (R23, log 7). -/
structure Request where
  /-- `OP[4:0]`, the operation code. -/
  op : OpCode
  /-- `A1`, the single-bit operand `a`. -/
  a1 : RawBit
  /-- `B1`, the single-bit operand `b`. -/
  b1 : RawBit
  /-- `C1`, the carry-in of FADD and RADD. -/
  c1 : RawBit
  /-- `XW`, the length of operand X, or the declared width. -/
  xw : Nat
  /-- `XS`, the signedness of operand X, or the declared signedness; true is signed. -/
  xs : Bit
  /-- `XB`, the bits of operand X, right-aligned: list index `k` is wire `XB[k]`. -/
  xb : List RawBit
  /-- `YW`, the length of operand Y. -/
  yw : Nat
  /-- `YS`, the signedness of operand Y. -/
  ys : Bit
  /-- `YB`, the bits of operand Y, as `XB`. -/
  yb : List RawBit
  /-- `N`, the pattern on the integer port, read modulo `2^NW` (R65). -/
  n : Nat
  /-- `SL`, the number of characters of the string operand. -/
  sl : Nat
  /-- `SC<i>`, the characters, `SC<0>` the leftmost at index 0. -/
  sc : List Byte
deriving DecidableEq, Repr

/-- The value type BitSequence with its six fields (10_state.md R21). -/
structure BitSequence where
  /-- Number of bits, at least 1. -/
  width : Nat
  /-- Whether the leading bit is a sign bit. -/
  signed : Bit
  /-- The bits, most significant first. -/
  bits : Bits
  /-- The integer the bits stand for (R24). -/
  decimal : Int
  /-- The least representable integer. -/
  min : Int
  /-- The greatest representable integer. -/
  max : Int
deriving DecidableEq, Repr

/-- A BitSequence as an operand: the triple (width, signed, bits) of R64, the width being the length of the bits. -/
structure SeqOperand where
  /-- The port `XS` or `YS`. -/
  signed : Bit
  /-- The bits, most significant first. -/
  bits : Bits
deriving DecidableEq, Repr

/-- A typed request line: an operation with its operands in the order of R70. An operand of an operation that may raise
InvalidBitError (60_exceptions.md R208, "port") is made of raw bits; every other operand is made of strict bits. -/
inductive Line where
  | xor (a b : RawBit)
  | hadd (a b : RawBit)
  | fadd (carryIn a b : RawBit)
  | radd (a b : List RawBit) (carryIn : RawBit)
  | inv (a : Bits)
  | tcn (a : List RawBit)
  | rsub (a b : List RawBit)
  | enc (n : Int) (width : Nat) (signed : Bit)
  | dec (bits : Bits) (signed : Bit)
  | bounds (width : Nat) (signed : Bit)
  | rchk (value : Int) (width : Nat) (signed : Bit)
  | newi (n : Int) (width : Nat) (signed : Bit)
  | news (s : List Byte) (width : Nat) (signed : Bit)
  | newb (b : List RawBit) (signed : Bit)
  | tostr (x : SeqOperand)
  | toint (x : SeqOperand)
  | bits (x : SeqOperand)
  | add (x y : SeqOperand)
  | sub (x y : SeqOperand)
  | eq (x y : SeqOperand)
  | gt (x y : SeqOperand)
  | lt (x y : SeqOperand)
deriving DecidableEq, Repr

/-- The operation that a line requests. -/
def Line.instr : Line → Instr
  | .xor _ _ => .xor
  | .hadd _ _ => .hadd
  | .fadd _ _ _ => .fadd
  | .radd _ _ _ => .radd
  | .inv _ => .inv
  | .tcn _ => .tcn
  | .rsub _ _ => .rsub
  | .enc _ _ _ => .enc
  | .dec _ _ => .dec
  | .bounds _ _ => .bounds
  | .rchk _ _ _ => .rchk
  | .newi _ _ _ => .newi
  | .news _ _ _ => .news
  | .newb _ _ => .newb
  | .tostr _ => .tostr
  | .toint _ => .toint
  | .bits _ => .bits
  | .add _ _ => .add
  | .sub _ _ => .sub
  | .eq _ _ => .eq
  | .gt _ _ => .gt
  | .lt _ _ => .lt

end Sys2Proof
end

