-- ==== Sys2Proof/WellFormed.lean ====
section
/-! DEFINITION. When a typed request line is well formed on an instance: its widths can be carried (30_encoding.md R69),
the raw adder's operands have one length (20_memory.md R44), an integer fits the port N (R65). A line that is not
well formed has no meaning (93_implementation_defined.md U1, U3). Every `Instr` is well formed: it has no operands, and a
reserved code is no `Instr` (R68). -/

namespace Sys2Proof

/-- `1 <= W <= WMAX` (R69). -/
def widthFits (p : Params) (w : Nat) : Bool := decide (1 ≤ w) && decide (w ≤ p.wmax)

/-- `-2^(NW-1) <= n <= 2^(NW-1) - 1` (R65). -/
def intFits (nw : Nat) (n : Int) : Bool :=
  decide (-((2 ^ (nw - 1) : Nat) : Int) ≤ n) && decide (n < ((2 ^ (nw - 1) : Nat) : Int))

/-- A string fits the string port of an instance when it has at most SMAX characters (R66). This is no part of a line's
well-formedness: a string of any length has its result (92_eei_decisions.md D5, 40_construction_and_range.md R103; log 10). -/
def stringFits (p : Params) (s : List Byte) : Bool := decide (s.length ≤ p.smax)

/-- The check of one line on an instance. -/
def Line.wf (p : Params) : Line → Bool
  | .xor _ _ => true
  | .hadd _ _ => true
  | .fadd _ _ _ => true
  | .radd a b _ => widthFits p a.length && widthFits p b.length && a.length == b.length
  | .inv a => widthFits p a.length
  | .tcn a => widthFits p a.length
  | .rsub a b => widthFits p a.length && widthFits p b.length && a.length == b.length
  | .enc n w _ => widthFits p w && intFits p.nw n
  | .dec v _ => widthFits p v.length
  | .bounds w _ => widthFits p w
  | .rchk v w _ => widthFits p w && intFits p.nw v
  | .newi n w _ => widthFits p w && intFits p.nw n
  | .news _ w _ => widthFits p w
  | .newb b _ => widthFits p b.length
  | .tostr x => widthFits p x.bits.length
  | .toint x => widthFits p x.bits.length
  | .bits x => widthFits p x.bits.length
  | .add x y => widthFits p x.bits.length && widthFits p y.bits.length
  | .sub x y => widthFits p x.bits.length && widthFits p y.bits.length
  | .eq x y => widthFits p x.bits.length && widthFits p y.bits.length
  | .gt x y => widthFits p x.bits.length && widthFits p y.bits.length
  | .lt x y => widthFits p x.bits.length && widthFits p y.bits.length

end Sys2Proof
end

