-- ==== Sys2Proof/Decode.lean ====
section
/-! DEFINITION. The decoder of the operation code and its encoder (30_encoding.md R60, R61, R68). -/

namespace Sys2Proof

/-- A row of the operation table: `match`, `mask` and the operation (R61). -/
structure OpRow where
  /-- The row's mnemonic (00_scope.md R15). -/
  mnemonic : String
  /-- The row's `match`. -/
  pattern : OpCode
  /-- The row's `mask`: which bits of OP are compared. -/
  mask : OpCode
  /-- The operation. -/
  instr : Instr
deriving DecidableEq, Repr

/-- The bit-logic primitives, codes 0x00 to 0x06 (R61). -/
def opRowsLogic : List OpRow :=
  [ ⟨"XOR", 0x00#5, 0x1F#5, .xor⟩, ⟨"HADD", 0x01#5, 0x1F#5, .hadd⟩, ⟨"FADD", 0x02#5, 0x1F#5, .fadd⟩,
    ⟨"RADD", 0x03#5, 0x1F#5, .radd⟩, ⟨"INV", 0x04#5, 0x1F#5, .inv⟩, ⟨"TCN", 0x05#5, 0x1F#5, .tcn⟩,
    ⟨"RSUB", 0x06#5, 0x1F#5, .rsub⟩ ]

/-- The codec, the range validator and the constructors, codes 0x08 to 0x0E (R61). -/
def opRowsCodec : List OpRow :=
  [ ⟨"ENC", 0x08#5, 0x1F#5, .enc⟩, ⟨"DEC", 0x09#5, 0x1F#5, .dec⟩, ⟨"BOUNDS", 0x0A#5, 0x1F#5, .bounds⟩,
    ⟨"RCHK", 0x0B#5, 0x1F#5, .rchk⟩, ⟨"NEWI", 0x0C#5, 0x1F#5, .newi⟩, ⟨"NEWS", 0x0D#5, 0x1F#5, .news⟩,
    ⟨"NEWB", 0x0E#5, 0x1F#5, .newb⟩ ]

/-- Read-out, arithmetic and comparison, codes 0x10 to 0x1A (R61). -/
def opRowsValue : List OpRow :=
  [ ⟨"TOSTR", 0x10#5, 0x1F#5, .tostr⟩, ⟨"TOINT", 0x11#5, 0x1F#5, .toint⟩, ⟨"BITS", 0x12#5, 0x1F#5, .bits⟩,
    ⟨"ADD", 0x14#5, 0x1F#5, .add⟩, ⟨"SUB", 0x15#5, 0x1F#5, .sub⟩, ⟨"EQ", 0x18#5, 0x1F#5, .eq⟩,
    ⟨"GT", 0x19#5, 0x1F#5, .gt⟩, ⟨"LT", 0x1A#5, 0x1F#5, .lt⟩ ]

/-- The operation table of R61. -/
def opTable : List OpRow := opRowsLogic ++ opRowsCodec ++ opRowsValue

/-- Why a code decodes to no operation. -/
inductive DecodeError where
  /-- The code is one of the ten reserved codes of R68. -/
  | reservedCode (code : OpCode)
deriving DecidableEq, Repr

/-- "a request selects the row whose `match` equals `OP AND mask`" (R61); a code that selects no row is reserved (R68). -/
def decode (code : OpCode) : Except DecodeError Instr :=
  match opTable.find? fun row => row.pattern == (code &&& row.mask) with
  | some row => .ok row.instr
  | none => .error (.reservedCode code)

/-- The code of an operation (R61). -/
def encode : Instr → OpCode
  | .xor => 0x00#5
  | .hadd => 0x01#5
  | .fadd => 0x02#5
  | .radd => 0x03#5
  | .inv => 0x04#5
  | .tcn => 0x05#5
  | .rsub => 0x06#5
  | .enc => 0x08#5
  | .dec => 0x09#5
  | .bounds => 0x0A#5
  | .rchk => 0x0B#5
  | .newi => 0x0C#5
  | .news => 0x0D#5
  | .newb => 0x0E#5
  | .tostr => 0x10#5
  | .toint => 0x11#5
  | .bits => 0x12#5
  | .add => 0x14#5
  | .sub => 0x15#5
  | .eq => 0x18#5
  | .gt => 0x19#5
  | .lt => 0x1A#5

/-- The levels that a table word of `nbits` bits puts on `OP[4:0]`. A bit of the word above bit 4 belongs to no wire of
the five-bit port (R60; log 13). -/
def codeOfTableWord (nbits w : Nat) : OpCode := BitVec.ofNat 5 (w % 2 ^ nbits)

/-- The operation that the decoder reads from a word of spec/opcode_table.json. -/
def decodeTableWord (nbits w : Nat) : Option Instr :=
  match decode (codeOfTableWord nbits w) with
  | .ok i => some i
  | .error _ => none

end Sys2Proof
end

