-- ==== Sys2Proof/Machine/State.lean ====
section
/-! DEFINITION. The state of the model: the parameters of the instance and the levels of the block's ports. The block
itself stores nothing (10_state.md R20, R28 to R33); log 1 says why the port levels stand in a state. -/

namespace Sys2Proof.Machine

/-- The seven errors, in the order of the taxonomy (60_exceptions.md R200). Each is a result of a request, not a stop. -/
inductive Error where
  /-- An element offered as a bit is not a strict Boolean (R201). -/
  | invalidBit
  /-- A character of the string is neither '0' nor '1' (R202). -/
  | invalidDigit
  /-- A string of digits whose length is not the declared width (R203). -/
  | lengthMismatch
  /-- The integer is outside the range; carries the offending value and the valid range (R204). -/
  | range (value min max : Int)
  /-- The operands differ in width or signedness (R205). -/
  | incompatibleOperands
  /-- The sum cannot be represented (R206). -/
  | overflow
  /-- Unsigned minuend not above the subtrahend (R207). -/
  | underflow
deriving DecidableEq, Repr

/-- Why the block stops with a fault: it never does. "There is no recovery path inside the core", and the next request is
evaluated as if a failed one had never been issued (R211), so no fault exists and the type is empty (log 6, safe). -/
inductive Fault
deriving DecidableEq, Repr

/-- Why a request has no meaning. Each is raised by the step or by an operand reader and is safe: the model stops where
the spec states no result. -/
inductive Refusal where
  /-- Raised by `exec` for an operation that has no meaning in the model yet. Safe. -/
  | notModelled (mnemonic : String)
  /-- Raised by `step`: the code on OP is reserved (30_encoding.md R68, U2). Safe. -/
  | reservedCode (code : OpCode)
  /-- Raised by the operand readers: a width that is 0 or above WMAX (R69, U3). Safe. -/
  | badWidth (width : Nat)
  /-- Raised by the readers of RADD and RSUB: operands of different lengths (20_memory.md R44, U1). Safe. -/
  | unequalLengths (xw yw : Nat)
  /-- Raised by the readers of strict operands: a non-Boolean element where the operation has no InvalidBitError, which no
  wire can carry (10_state.md R23, 60_exceptions.md R208; log 8). Safe. -/
  | notABit
deriving DecidableEq, Repr

/-- The output ports (10_state.md R27). `none` is the spec's "unspecified and a model gives it no value" (R27, R32, R210;
log 4). A bus is listed from wire 0 (weight `2^0`) upward. -/
structure Outputs where
  /-- `ST[3:0]`, the status. -/
  st : Option (BitVec 4)
  /-- `RL`, the length of the result sequence or string. -/
  rl : Option Nat
  /-- `RS`, the signedness of a BitSequence result. -/
  rs : Option Bit
  /-- `RB[RL-1:0]`, the result bits. -/
  rb : Option (List Bit)
  /-- `RF0`, a sum bit or a comparison's answer. -/
  rf0 : Option Bit
  /-- `RF1`, a carry. -/
  rf1 : Option Bit
  /-- `RD`, a decimal, exact (D4; log 12). -/
  rd : Option Int
  /-- `RLO`, a lower bound. -/
  rlo : Option Int
  /-- `RHI`, an upper bound. -/
  rhi : Option Int
  /-- `RC<0..RL-1>`, the result characters, leftmost first. -/
  rc : Option (List Byte)
deriving DecidableEq, Repr

/-- Every output without a value: before a request (R32), and what a result then fills in. -/
def Outputs.undriven : Outputs :=
  { st := none, rl := none, rs := none, rb := none, rf0 := none, rf1 := none, rd := none, rlo := none, rhi := none,
    rc := none }

/-- The model's state: instance constants, input levels, output levels. Plain data. -/
structure State where
  /-- The constants of the instance (00_scope.md R7, 10_state.md R31). -/
  params : Params
  /-- The request on the input ports (R26). -/
  req : Request
  /-- The result on the output ports (R27). -/
  out : Outputs
deriving DecidableEq, Repr

/-- The input levels before the host has driven a request: every port 0, but for the two width ports, which stand at 1,
since 0 is not a width (30_encoding.md R69). DESIGN CHOICE (log 3), unsafe: the spec gives no levels (10_state.md R32). -/
def initialRequest : Request :=
  { op := 0#5, a1 := .bool false, b1 := .bool false, c1 := .bool false, xw := 1, xs := false, xb := [], yw := 1,
    ys := false, yb := [], n := 0, sl := 0, sc := [] }

/-- After power-up: nothing is stored, so nothing is reset (R32, 70_reset_and_hazards.md R230); the outputs have no value. -/
def State.reset : State :=
  { params := Params.reference, req := initialRequest, out := Outputs.undriven }

end Sys2Proof.Machine
end

