-- ==== Sys2Proof/Machine/Operands.lean ====
section
/-! DEFINITION. Reading operands from the input ports and placing them there (30_encoding.md R62, R64 to R67, R69). A
reader answers the operand, or the refusal of a request that has no meaning. -/

namespace Sys2Proof.Machine

/-! ## Buses -/

/-- The `w` low wires of a bus as a sequence, most significant first: list index `i` is wire `w-1-i` (20_memory.md R41).
A wire that the list does not reach is at level 0 (log 11); wires at or above `w` are not read (R69). -/
def takeWires (w : Nat) (bus : List RawBit) : List RawBit :=
  ((List.range w).map fun k => bus.getD k (.bool false)).reverse

/-- The wires that carry a sequence, wire 0 first (R41, R64). -/
def toWires {α : Type} (v : List α) : List α := v.reverse

/-- Strict bits as a host offers them. -/
def rawBits (v : Bits) : List RawBit := v.map .bool

/-- The strict bits of a raw sequence, if every element is one (10_state.md R23). -/
def strictBits? : List RawBit → Option Bits
  | [] => some []
  | .bool b :: t => (strictBits? t).map (b :: ·)
  | .other :: _ => none

/-! ## Readers -/

/-- A width field of an operation that reads it: `1 <= W <= WMAX`, else the request has no meaning (R69, U3). -/
def readWidth (p : Params) (w : Nat) : Except Refusal Nat :=
  if 1 ≤ w ∧ w ≤ p.wmax then .ok w else .error (.badWidth w)

/-- The raw bit-list on `XW`, `XB`. -/
def readRawX (p : Params) (r : Request) : Except Refusal (List RawBit) :=
  match readWidth p r.xw with
  | .ok w => .ok (takeWires w r.xb)
  | .error e => .error e

/-- The raw bit-list on `YW`, `YB`. -/
def readRawY (p : Params) (r : Request) : Except Refusal (List RawBit) :=
  match readWidth p r.yw with
  | .ok w => .ok (takeWires w r.yb)
  | .error e => .error e

/-- The two raw bit-lists of RADD and RSUB: both widths carried, then equal lengths (20_memory.md R44, U1). -/
def readRawPair (p : Params) (r : Request) : Except Refusal (List RawBit × List RawBit) :=
  match readRawX p r, readRawY p r with
  | .error e, _ => .error e
  | .ok _, .error e => .error e
  | .ok a, .ok b => if a.length = b.length then .ok (a, b) else .error (.unequalLengths a.length b.length)

/-- Strict bits for an operation that has no InvalidBitError (60_exceptions.md R208): a non-Boolean element cannot be on
its wires (10_state.md R23), so such a request has no meaning (log 8). -/
def demandStrict (v : List RawBit) : Except Refusal Bits :=
  match strictBits? v with
  | some b => .ok b
  | none => .error .notABit

/-- The strict bit sequence on `XW`, `XB`. -/
def readBitsX (p : Params) (r : Request) : Except Refusal Bits :=
  match readRawX p r with
  | .ok v => demandStrict v
  | .error e => .error e

/-- The strict bit sequence on `YW`, `YB`. -/
def readBitsY (p : Params) (r : Request) : Except Refusal Bits :=
  match readRawY p r with
  | .ok v => demandStrict v
  | .error e => .error e

/-- BitSequence X: the triple (`XW`, `XS`, `XB`) (R64). -/
def readSeqX (p : Params) (r : Request) : Except Refusal SeqOperand :=
  match readBitsX p r with
  | .ok v => .ok { signed := r.xs, bits := v }
  | .error e => .error e

/-- BitSequence Y: the triple (`YW`, `YS`, `YB`) (R64). -/
def readSeqY (p : Params) (r : Request) : Except Refusal SeqOperand :=
  match readBitsY p r with
  | .ok v => .ok { signed := r.ys, bits := v }
  | .error e => .error e

/-- BitSequences X and Y of a two-operand operator. -/
def readSeqPair (p : Params) (r : Request) : Except Refusal (SeqOperand × SeqOperand) :=
  match readSeqX p r, readSeqY p r with
  | .error e, _ => .error e
  | .ok _, .error e => .error e
  | .ok x, .ok y => .ok (x, y)

/-- The integer operand `n = sval(N)` of the NW-bit port (R65). -/
def readInt (p : Params) (r : Request) : Int := (BitVec.ofNat p.nw r.n).toInt

/-- The characters `SC<0> .. SC<SL-1>` (R66); a character that the list does not reach is 0 (log 11). "In the model a string
is a finite list of bytes of any length" (92_eei_decisions.md D5), so SL above SMAX reads SL characters too (log 10). -/
def readString (r : Request) : List Byte := (List.range r.sl).map fun i => r.sc.getD i 0#8

/-- The string operand and the declared width of NEWS: only the width can make the request meaningless. -/
def readStringWidth (p : Params) (r : Request) : Except Refusal (List Byte × Nat) :=
  match readWidth p r.xw with
  | .ok w => .ok (readString r, w)
  | .error e => .error e

/-! ## Placing integers -/

/-- The pattern on an NW-bit integer port whose value is `v` (R65); for a `v` that does not fit, `v` modulo `2^NW`, which is the
model's choice (DESIGN CHOICE, log 20). -/
def intPattern (nw : Nat) (v : Int) : Nat := (BitVec.ofInt nw v).toNat

/-- The wires of an integer result: "the `NW`-bit vector with `sval = v`; it exists when" `v` is in range (R65); for a
decimal that does not fit, no pattern is given (93_implementation_defined.md U16, log 12). -/
def intWires (nw : Nat) (v : Int) : Option (BitVec nw) :=
  if intFits nw v then some (BitVec.ofInt nw v) else none

end Sys2Proof.Machine
end

