-- ==== Sys2Proof/Machine/Flags.lean ====
section
/-! DEFINITION. What plays the part of flags, each an output of one request (10_state.md R30): the status codes
(30_encoding.md R63), the carry and the list it lengthens (R67), sign bits, and the signed overflow test (43_arithmetic.md
R162). -/

namespace Sys2Proof.Machine

/-- The status `Ok` (R63). -/
def statusOk : BitVec 4 := 0#4

/-- The status code of an error (R63). -/
def errorCode : Error → BitVec 4
  | .invalidBit => 1#4
  | .invalidDigit => 2#4
  | .lengthMismatch => 3#4
  | .range _ _ _ => 4#4
  | .incompatibleOperands => 5#4
  | .overflow => 6#4
  | .underflow => 7#4

/-- `msb(v) = v<0>` (00_scope.md R9). -/
def msb (v : Bits) : Bit := v.headD false

/-- The source's list when a carry remains: "**prepend** it" (R67, 42_bit_logic.md R143). -/
def prependCarry (sum : Bits) (carry : Bit) : Bits := if carry then true :: sum else sum

/-- "overflow iff both operands share a sign and the result's sign differs" (R162). -/
def signedOverflow (x y sum : Bits) : Bool := msb x == msb y && msb sum != msb x

/-- Two operands are compatible when width and signedness agree (60_exceptions.md R205). -/
def compatible (x y : BitSequence) : Bool := x.signed == y.signed && x.width == y.width

end Sys2Proof.Machine
end

