-- ==== Sys2Proof/Machine/Ops.lean ====
section
/-! DEFINITION. The shared operations on the output ports: presenting a result, and raising an error, which is this block's
one exceptional event (60_exceptions.md R210). -/

namespace Sys2Proof.Machine

/-- Present a result: the outputs are a function of this request alone (10_state.md R20); inputs and parameters stay. -/
def State.present (s : State) (o : Outputs) : State := { s with out := o }

/-! ## Raising an error -/

/-- The outputs of `Err(E, info)`: the status code, for RangeError the value and the range on `RD`, `RLO`, `RHI`, and no
value on any other output (R204, R210, D27). -/
def errorOutputs : Error → Outputs
  | .range v lo hi =>
    { Outputs.undriven with st := some (errorCode (.range v lo hi)), rd := some v, rlo := some lo, rhi := some hi }
  | e => { Outputs.undriven with st := some (errorCode e) }

/-- Raise an error: the one exception entry of the block. "Nothing is saved anywhere, no mode changes, no control goes
anywhere" (R210), so it only presents `Err(E, info)`. There is no return from it: the next request is evaluated as if the
failed one had never been issued (R211). -/
def raiseError (e : Error) (s : State) : State := s.present (errorOutputs e)

/-! ## The outputs of `Ok` (30_encoding.md R62) -/

/-- `ST = 0` and nothing else: RCHK. -/
def okOutputs : Outputs := { Outputs.undriven with st := some statusOk }

/-- `RF0`: XOR, EQ, GT, LT. -/
def bitOutputs (f : Bit) : Outputs := { okOutputs with rf0 := some f }

/-- `RF0` = sum and `RF1` = carry: HADD, FADD. -/
def sumCarryOutputs (r : Bit × Bit) : Outputs := { okOutputs with rf0 := some r.1, rf1 := some r.2 }

/-- `RL` and `RB`: INV, ENC, BITS. -/
def bitsOutputs (v : Bits) : Outputs := { okOutputs with rl := some v.length, rb := some (toWires v) }

/-- `RL = L + c`, `RB` the sum with the carry prepended, `RF1 = c` (R67): RADD, RSUB. -/
def carryListOutputs (r : Bits × Bit) : Outputs := { bitsOutputs (prependCarry r.1 r.2) with rf1 := some r.2 }

/-- `RL = L`, `RB` the sum alone, `RF1` the dropped carry (42_bit_logic.md R146): TCN. -/
def droppedCarryOutputs (r : Bits × Bit) : Outputs := { bitsOutputs r.1 with rf1 := some r.2 }

/-- `RD`: DEC, TOINT. -/
def intOutputs (d : Int) : Outputs := { okOutputs with rd := some d }

/-- `RLO`, `RHI`: BOUNDS. -/
def boundsOutputs (b : Int × Int) : Outputs := { okOutputs with rlo := some b.1, rhi := some b.2 }

/-- `RL`, `RS`, `RB`, `RD`, `RLO`, `RHI`: a BitSequence result (R64). -/
def bitSequenceOutputs (x : BitSequence) : Outputs :=
  { bitsOutputs x.bits with rs := some x.signed, rd := some x.decimal, rlo := some x.min, rhi := some x.max }

/-- `RL`, `RC`: TOSTR. -/
def stringOutputs (t : List Byte) : Outputs := { okOutputs with rl := some t.length, rc := some t }

/-! ## From operands to the next state -/

/-- The step of a request whose operands are read: the result's outputs, or the error (00_scope.md R12). -/
def respond {α : Type} (s : State) (drive : α → Outputs) (result : Except Error α) :
    Host.Outcome State Fault Refusal :=
  match result with
  | .ok v => .next (s.present (drive v))
  | .error e => .next (raiseError e s)

/-- Go on with an operand, or refuse a request that has no meaning (93_implementation_defined.md section 2). -/
def withOperand {α : Type} (operand : Except Refusal α) (k : α → Host.Outcome State Fault Refusal) :
    Host.Outcome State Fault Refusal :=
  match operand with
  | .ok v => k v
  | .error e => .refused e

end Sys2Proof.Machine
end

