-- ==== Sys2Proof/Machine/BitLogic.lean ====
section
/-! DEFINITION. The bit-logic primitives (42_bit_logic.md): XOR, HADD, FADD, RADD, INV, TCN, RSUB. The functions on strict
bits come first, then the strict-Boolean boundary (R140, 60_exceptions.md R201), then the meanings. -/

namespace Sys2Proof.Machine

/-! ## Functions on strict bits -/

/-- `XOR(a, b) = 1 if a != b else 0` (R140). -/
def xorBit (a b : Bit) : Bit := a != b

/-- `(sum, carry)` of a half adder (R141). -/
def halfAdder (a b : Bit) : Bit × Bit := (xorBit a b, a && b)

/-- `(sum, carry_out)` of a full adder: two half adders in a chain, the carries joined by OR (R142). -/
def fullAdder (carryIn a b : Bit) : Bit × Bit :=
  let (s1, c1) := halfAdder a b
  let (s2, c2) := halfAdder carryIn s1
  (s2, c2 || c1)

/-- The `L` sum bits and the carry out of the ripple-carry chain (R143, R144): the less significant positions, which stand
later in the list, are added first and their carry enters the full adder of this position. The default carry-in is R71's.
Lists of different lengths are never given to it (R151; the readers refuse them). -/
def rippleAdd : Bits → Bits → (carryIn : Bit := false) → Bits × Bit
  | a :: as, b :: bs, carryIn =>
    let (low, c) := rippleAdd as bs carryIn
    let (s, carryOut) := fullAdder c a b
    (s :: low, carryOut)
  | _, _, carryIn => ([], carryIn)

/-- Bitwise NOT of every element (R145). -/
def invert (a : Bits) : Bits := a.map (! ·)

/-- `L-1` zeros followed by one 1 (00_scope.md R9); the empty sequence for `L = 0`. -/
def oneOf : Nat → Bits
  | 0 => []
  | l + 1 => List.replicate l false ++ [true]

/-- Invert, then add one of the same length (R146): the `L` sum bits, and the carry that is dropped from them (D19). -/
def twosComplement (a : Bits) : Bits × Bit := rippleAdd (invert a) (oneOf a.length)

/-- `ripple_add(A, twos_complement(B), carry_in=false)` (R148). -/
def rippleSubtract (a b : Bits) : Bits × Bit := rippleAdd a (twosComplement b).1 false

/-! ## The strict-Boolean boundary -/

/-- A bit operand must be a strict Boolean, else InvalidBitError (R140, 60_exceptions.md R201). -/
def strictBit : RawBit → Except Error Bit
  | .bool b => .ok b
  | .other => .error .invalidBit

/-- Every element of a bit-list must be a strict Boolean, else InvalidBitError (R201). -/
def strictBits (v : List RawBit) : Except Error Bits :=
  match strictBits? v with
  | some b => .ok b
  | none => .error .invalidBit

/-- XOR "fails fast if either input is not a strict boolean" (R140). -/
def xorRaw (a b : RawBit) : Except Error Bit := do
  let a ← strictBit a
  let b ← strictBit b
  return xorBit a b

/-- HADD is built from XOR, so its inputs pass the same check (R140). -/
def halfAdderRaw (a b : RawBit) : Except Error (Bit × Bit) := do
  let a ← strictBit a
  let b ← strictBit b
  return halfAdder a b

/-- FADD is built from HADD (R142). -/
def fullAdderRaw (carryIn a b : RawBit) : Except Error (Bit × Bit) := do
  let a ← strictBit a
  let b ← strictBit b
  let c ← strictBit carryIn
  return fullAdder c a b

/-- RADD is built from FADD (R143). -/
def rippleAddRaw (a b : List RawBit) (carryIn : RawBit) : Except Error (Bits × Bit) := do
  let a ← strictBits a
  let b ← strictBits b
  let c ← strictBit carryIn
  return rippleAdd a b c

/-- TCN is built from RADD (R146). -/
def twosComplementRaw (a : List RawBit) : Except Error (Bits × Bit) := do
  let a ← strictBits a
  return twosComplement a

/-- RSUB is built from TCN and RADD (R148). -/
def rippleSubtractRaw (a b : List RawBit) : Except Error (Bits × Bit) := do
  let a ← strictBits a
  let b ← strictBits b
  return rippleSubtract a b

/-! ## Meanings -/

/-- XOR (R140): `RF0` is the exclusive or of `A1` and `B1`. -/
def execXor (s : State) : Host.Outcome State Fault Refusal :=
  respond s bitOutputs (xorRaw s.req.a1 s.req.b1)

/-- HADD (R141): `RF0` is the sum and `RF1` the carry of `A1` and `B1`. -/
def execHadd (s : State) : Host.Outcome State Fault Refusal :=
  respond s sumCarryOutputs (halfAdderRaw s.req.a1 s.req.b1)

/-- FADD (R142): `RF0` is the sum and `RF1` the carry of `C1`, `A1` and `B1`. -/
def execFadd (s : State) : Host.Outcome State Fault Refusal :=
  respond s sumCarryOutputs (fullAdderRaw s.req.c1 s.req.a1 s.req.b1)

/-- RADD (R143): the ripple sum of X and Y with carry-in `C1`, the carry prepended and on `RF1`. -/
def execRadd (s : State) : Host.Outcome State Fault Refusal :=
  withOperand (readRawPair s.params s.req) fun ab =>
    respond s carryListOutputs (rippleAddRaw ab.1 ab.2 s.req.c1)

/-- INV (R145): every bit of X inverted. -/
def execInv (s : State) : Host.Outcome State Fault Refusal :=
  withOperand (readBitsX s.params s.req) fun a => respond s bitsOutputs (.ok (invert a))

/-- TCN (R146): the two's-complement transform of X, always `L` bits, the dropped carry on `RF1`. -/
def execTcn (s : State) : Host.Outcome State Fault Refusal :=
  withOperand (readRawX s.params s.req) fun a => respond s droppedCarryOutputs (twosComplementRaw a)

/-- RSUB (R148): X plus the two's complement of Y, the carry prepended and on `RF1`. -/
def execRsub (s : State) : Host.Outcome State Fault Refusal :=
  withOperand (readRawPair s.params s.req) fun ab =>
    respond s carryListOutputs (rippleSubtractRaw ab.1 ab.2)

end Sys2Proof.Machine
end

