-- ==== Sys2Proof/Machine/Codec.lean ====
section
/-! DEFINITION. The codec (41_codec.md): ENC and DEC. -/

namespace Sys2Proof.Machine

/-- `uval(v)`: each bit times the power of two of its position, `v[k] * 2^k` (00_scope.md R10). -/
def uval : Bits → Nat
  | [] => 0
  | b :: t => b.toNat * 2 ^ t.length + uval t

/-- The positional decomposition of step 2: from `2^(w-1)` down to `2^0`, "bit = `1` if the power fits in the remaining
residual, then subtract it out", where fits is `2^k <= r` (R120, D28). -/
def decompose : Nat → Int → Bits
  | 0, _ => []
  | k + 1, r =>
    if ((2 ^ k : Nat) : Int) ≤ r then true :: decompose k (r - ((2 ^ k : Nat) : Int)) else false :: decompose k r

/-- ENC (R120): the magnitude of a signed `n`, an unsigned `n` as it is, decomposed; negated if signed and negative. -/
def encodeInt (n : Int) (w : Nat) (signed : Bit) : Bits :=
  let magnitude : Int := if signed then (n.natAbs : Int) else n
  let m := decompose w magnitude
  if signed && decide (n < 0) then (twosComplement m).1 else m

/-- DEC (R123): a set sign bit is undone by the negator and the magnitude negated; else the positional value. -/
def decodeBits (v : Bits) (signed : Bit) : Int :=
  if signed && msb v then -((uval (twosComplement v).1 : Nat) : Int) else ((uval v : Nat) : Int)

/-- ENC (R120): `ST = 0` for every integer, in range or not (R122). -/
def execEnc (s : State) : Host.Outcome State Fault Refusal :=
  withOperand (readWidth s.params s.req.xw) fun w =>
    respond s bitsOutputs (.ok (encodeInt (readInt s.params s.req) w s.req.xs))

/-- DEC (R123): the integer of the bits on X under the signedness `XS`. -/
def execDec (s : State) : Host.Outcome State Fault Refusal :=
  withOperand (readBitsX s.params s.req) fun v => respond s intOutputs (.ok (decodeBits v s.req.xs))

end Sys2Proof.Machine
end

