-- ==== Sys2Proof/Machine/Construction.lean ====
section
/-! DEFINITION. The range validator and the three construction paths (40_construction_and_range.md): BOUNDS, RCHK, NEWI,
NEWS, NEWB. -/

namespace Sys2Proof.Machine

/-- `(min, max)` of a width and a signedness (R100). -/
def rangeBounds (w : Nat) (signed : Bit) : Int × Int :=
  if signed then (-((2 ^ (w - 1) : Nat) : Int), ((2 ^ (w - 1) : Nat) : Int) - 1) else (0, ((2 ^ w : Nat) : Int) - 1)

/-- Is the integer inside the range, both bounds included (R101)? -/
def inRange (v : Int) (w : Nat) (signed : Bit) : Bool :=
  decide ((rangeBounds w signed).1 ≤ v) && decide (v ≤ (rangeBounds w signed).2)

/-- RCHK (R101): the test is on the integer itself; the error carries it and the range. -/
def rangeCheck (v : Int) (w : Nat) (signed : Bit) : Except Error Unit :=
  if inRange v w signed then .ok () else .error (.range v (rangeBounds w signed).1 (rangeBounds w signed).2)

/-- The BitSequence of given bits, signedness and decimal, with the bounds of its width (10_state.md R21). -/
def makeSequence (bits : Bits) (signed : Bit) (decimal : Int) : BitSequence :=
  { width := bits.length, signed := signed, bits := bits, decimal := decimal,
    min := (rangeBounds bits.length signed).1, max := (rangeBounds bits.length signed).2 }

/-- A BitSequence operand: "The fields `decimal`, `min` and `max` are not inputs: the block derives them" (30_encoding.md
R64; 10_state.md R24). -/
def deriveSequence (x : SeqOperand) : BitSequence := makeSequence x.bits x.signed (decodeBits x.bits x.signed)

/-- NEWI (R102): encode, check `n` itself, cache `n` as the decimal (D24). -/
def newFromInt (n : Int) (w : Nat) (signed : Bit) : Except Error BitSequence := do
  let bits := encodeInt n w signed
  rangeCheck n w signed
  return makeSequence bits signed n

/-- NEWB on strict bits (R104, R167): decode, run the check that cannot fail (R108). -/
def newFromStrictBits (bits : Bits) (signed : Bit) : Except Error BitSequence := do
  let decimal := decodeBits bits signed
  rangeCheck decimal bits.length signed
  return makeSequence bits signed decimal

/-- NEWB (R104): every element must be a strict Boolean. -/
def newFromBits (b : List RawBit) (signed : Bit) : Except Error BitSequence := do
  let bits ← strictBits b
  newFromStrictBits bits signed

/-- The byte of the character `'0'` (20_memory.md R42, D21; log 15). -/
def charZero : Byte := 0x30#8

/-- The byte of the character `'1'` (20_memory.md R42, D21; log 15). -/
def charOne : Byte := 0x31#8

/-- Is the character a binary digit (30_encoding.md R66)? -/
def isDigit (c : Byte) : Bool := c == charZero || c == charOne

/-- NEWS (R103): every character first, then the length (D10; log 14), then decode. -/
def newFromString (t : List Byte) (w : Nat) (signed : Bit) : Except Error BitSequence :=
  if t.all isDigit then
    if t.length = w then newFromStrictBits (t.map (· == charOne)) signed else .error .lengthMismatch
  else .error .invalidDigit

/-! ## Meanings -/

/-- BOUNDS (R100): `RLO = min`, `RHI = max`. -/
def execBounds (s : State) : Host.Outcome State Fault Refusal :=
  withOperand (readWidth s.params s.req.xw) fun w => respond s boundsOutputs (.ok (rangeBounds w s.req.xs))

/-- RCHK (R101): `ST = 0` and no other output, or RangeError. -/
def execRchk (s : State) : Host.Outcome State Fault Refusal :=
  withOperand (readWidth s.params s.req.xw) fun w =>
    respond s (fun _ => okOutputs) (rangeCheck (readInt s.params s.req) w s.req.xs)

/-- NEWI (R102): construct from the integer on `N`. -/
def execNewi (s : State) : Host.Outcome State Fault Refusal :=
  withOperand (readWidth s.params s.req.xw) fun w =>
    respond s bitSequenceOutputs (newFromInt (readInt s.params s.req) w s.req.xs)

/-- NEWS (R103): construct from the string on `SL`, `SC` with the declared width `XW`. -/
def execNews (s : State) : Host.Outcome State Fault Refusal :=
  withOperand (readStringWidth s.params s.req) fun tw =>
    respond s bitSequenceOutputs (newFromString tw.1 tw.2 s.req.xs)

/-- NEWB (R104): construct from the bit-list on `XW`, `XB`. -/
def execNewb (s : State) : Host.Outcome State Fault Refusal :=
  withOperand (readRawX s.params s.req) fun b => respond s bitSequenceOutputs (newFromBits b s.req.xs)

end Sys2Proof.Machine
end

