-- ==== Sys2Proof/Machine/Arithmetic.lean ====
section
/-! DEFINITION. The arithmetic operators (43_arithmetic.md): ADD and SUB. -/

namespace Sys2Proof.Machine

/-- ADD (R160): compatibility, the raw sum, the overflow test of the signedness, the validated result. `ovfCheck` is the
parameter SIGNED_OVF_CHECK (R162). -/
def addSequences (ovfCheck : Bool) (x y : BitSequence) : Except Error BitSequence :=
  if compatible x y then
    let (sum, carry) := rippleAdd x.bits y.bits
    if x.signed then
      if ovfCheck && signedOverflow x.bits y.bits sum then .error .overflow else newFromStrictBits sum x.signed
    else if carry then .error .overflow
    else newFromStrictBits sum x.signed
  else .error .incompatibleOperands

/-- SUB (R164): compatibility, the strict minuend of unsigned operands, the raw difference without its carry (D11). -/
def subSequences (x y : BitSequence) : Except Error BitSequence :=
  if compatible x y then
    if !x.signed && !decide (y.decimal < x.decimal) then .error .underflow
    else newFromStrictBits (rippleSubtract x.bits y.bits).1 x.signed
  else .error .incompatibleOperands

/-- ADD (R160). -/
def execAdd (s : State) : Host.Outcome State Fault Refusal :=
  withOperand (readSeqPair s.params s.req) fun xy =>
    respond s bitSequenceOutputs
      (addSequences s.params.signedOvfCheck (deriveSequence xy.1) (deriveSequence xy.2))

/-- SUB (R164). -/
def execSub (s : State) : Host.Outcome State Fault Refusal :=
  withOperand (readSeqPair s.params s.req) fun xy =>
    respond s bitSequenceOutputs (subSequences (deriveSequence xy.1) (deriveSequence xy.2))

end Sys2Proof.Machine
end

