-- ==== Sys2Proof/Machine/Comparison.lean ====
section
/-! DEFINITION. The comparison operators (44_comparison.md): EQ, GT, LT. -/

namespace Sys2Proof.Machine

/-- "every bit pairs equal" for two sequences of one length (R180). -/
def sameBits : Bits → Bits → Bool
  | a :: as, b :: bs => if a != b then false else sameBits as bs
  | _, _ => true

/-- From the most significant bit down, the first differing bit decides: higher bit wins; none differs: false (R182, D9). -/
def firstDifference : Bits → Bits → Bool
  | a :: as, b :: bs => if a != b then a else firstDifference as bs
  | _, _ => false

/-- EQ (R180): never raises. -/
def equalSequences (x y : BitSequence) : Bool := if compatible x y then sameBits x.bits y.bits else false

/-- GT (R182): compatibility, then a sign-bit difference of signed values, then the scan. -/
def greaterThan (x y : BitSequence) : Except Error Bool :=
  if compatible x y then
    if x.signed && (msb x.bits != msb y.bits) then .ok (!msb x.bits) else .ok (firstDifference x.bits y.bits)
  else .error .incompatibleOperands

/-- LT (R184): `NOT greater_than(x,y) AND NOT equals(x,y)`; an error of GT is its error. -/
def lessThan (x y : BitSequence) : Except Error Bool := do
  let g ← greaterThan x y
  let e := equalSequences x y
  return !g && !e

/-- EQ (R180). -/
def execEq (s : State) : Host.Outcome State Fault Refusal :=
  withOperand (readSeqPair s.params s.req) fun xy =>
    respond s bitOutputs (.ok (equalSequences (deriveSequence xy.1) (deriveSequence xy.2)))

/-- GT (R182). -/
def execGt (s : State) : Host.Outcome State Fault Refusal :=
  withOperand (readSeqPair s.params s.req) fun xy =>
    respond s bitOutputs (greaterThan (deriveSequence xy.1) (deriveSequence xy.2))

/-- LT (R184). -/
def execLt (s : State) : Host.Outcome State Fault Refusal :=
  withOperand (readSeqPair s.params s.req) fun xy =>
    respond s bitOutputs (lessThan (deriveSequence xy.1) (deriveSequence xy.2))

end Sys2Proof.Machine
end

