-- ==== Sys2Proof/Machine/ReadOut.lean ====
section
/-! DEFINITION. The read-out operations (40_construction_and_range.md section 3): TOSTR, TOINT, BITS. -/

namespace Sys2Proof.Machine

/-- The canonical bit-string: one character per bit, most significant first (R105). -/
def toBitString (x : BitSequence) : List Byte := x.bits.map fun b => if b then charOne else charZero

/-- TOSTR (R105). -/
def execTostr (s : State) : Host.Outcome State Fault Refusal :=
  withOperand (readSeqX s.params s.req) fun x => respond s stringOutputs (.ok (toBitString (deriveSequence x)))

/-- TOINT (R106): the decimal of X. -/
def execToint (s : State) : Host.Outcome State Fault Refusal :=
  withOperand (readSeqX s.params s.req) fun x => respond s intOutputs (.ok (deriveSequence x).decimal)

/-- BITS (R107): the bits of X, most significant first. -/
def execBits (s : State) : Host.Outcome State Fault Refusal :=
  withOperand (readSeqX s.params s.req) fun x => respond s bitsOutputs (.ok (deriveSequence x).bits)

end Sys2Proof.Machine
end

