-- ==== Sys2Proof/Machine/Dispatch.lean ====
section
/-! DEFINITION. One arm per operation of 30_encoding.md R61. -/

namespace Sys2Proof.Machine

def exec (i : Instr) (s : State) : Host.Outcome State Fault Refusal :=
  match i with
  | .xor => Sys2Proof.Machine.execXor s
  | .hadd => Sys2Proof.Machine.execHadd s
  | .fadd => Sys2Proof.Machine.execFadd s
  | .radd => Sys2Proof.Machine.execRadd s
  | .inv => Sys2Proof.Machine.execInv s
  | .tcn => Sys2Proof.Machine.execTcn s
  | .rsub => Sys2Proof.Machine.execRsub s
  | .enc => Sys2Proof.Machine.execEnc s
  | .dec => Sys2Proof.Machine.execDec s
  | .bounds => Sys2Proof.Machine.execBounds s
  | .rchk => Sys2Proof.Machine.execRchk s
  | .newi => Sys2Proof.Machine.execNewi s
  | .news => Sys2Proof.Machine.execNews s
  | .newb => Sys2Proof.Machine.execNewb s
  | .tostr => Sys2Proof.Machine.execTostr s
  | .toint => Sys2Proof.Machine.execToint s
  | .bits => Sys2Proof.Machine.execBits s
  | .add => Sys2Proof.Machine.execAdd s
  | .sub => Sys2Proof.Machine.execSub s
  | .eq => Sys2Proof.Machine.execEq s
  | .gt => Sys2Proof.Machine.execGt s
  | .lt => Sys2Proof.Machine.execLt s

end Sys2Proof.Machine
end

