-- ==== Sys2Proof/Machine/Step.lean ====
section
/-! DEFINITION. One step: the evaluation of the request on the ports (10_state.md R20). -/

namespace Sys2Proof.Machine

/-- Decode `OP`, evaluate the operation; a reserved code is refused (30_encoding.md R60, R68). -/
def step (s : State) : Host.Outcome State Fault Refusal :=
  match decode s.req.op with
  | .ok i => exec i s
  | .error (.reservedCode code) => .refused (.reservedCode code)

/-- The state with a table word's code on the port `OP`; every operand port keeps its level (log 5). -/
def State.withFetchWord (s : State) (nbits w : Nat) : State :=
  { s with req := { s.req with op := codeOfTableWord nbits w } }

end Sys2Proof.Machine
end

