-- ==== Sys2Proof/Machine/Lines.lean ====
section
/-! DEFINITION. Typed request lines on the ports: a line is placed on the operand ports of 30_encoding.md R62 with its code
on OP (R70), and read back from them. -/

namespace Sys2Proof.Machine

/-- A raw bit-list on X. -/
def placeX (v : List RawBit) (r : Request) : Request := { r with xw := v.length, xb := toWires v }

/-- A raw bit-list on Y. -/
def placeY (v : List RawBit) (r : Request) : Request := { r with yw := v.length, yb := toWires v }

/-- A BitSequence on X: width, signedness and right-aligned bits (R64). -/
def placeSeqX (x : SeqOperand) (r : Request) : Request := { placeX (rawBits x.bits) r with xs := x.signed }

/-- A BitSequence on Y (R64). -/
def placeSeqY (y : SeqOperand) (r : Request) : Request := { placeY (rawBits y.bits) r with ys := y.signed }

/-- BitSequences on X and Y. -/
def placePair (x y : SeqOperand) (r : Request) : Request := placeSeqY y (placeSeqX x r)

/-- An integer, a declared width and a declared signedness (R65). -/
def placeInt (nw : Nat) (n : Int) (w : Nat) (signed : Bit) (r : Request) : Request :=
  { r with n := intPattern nw n, xw := w, xs := signed }

/-- A line's operands on the ports of R62; every other port keeps its level. -/
def placeOperands (p : Params) (r : Request) : Line → Request
  | .xor a b => { r with a1 := a, b1 := b }
  | .hadd a b => { r with a1 := a, b1 := b }
  | .fadd c a b => { r with c1 := c, a1 := a, b1 := b }
  | .radd a b c => { placeY b (placeX a r) with c1 := c }
  | .inv a => placeX (rawBits a) r
  | .tcn a => placeX a r
  | .rsub a b => placeY b (placeX a r)
  | .enc n w sg => placeInt p.nw n w sg r
  | .dec v sg => placeSeqX { signed := sg, bits := v } r
  | .bounds w sg => { r with xw := w, xs := sg }
  | .rchk v w sg => placeInt p.nw v w sg r
  | .newi n w sg => placeInt p.nw n w sg r
  | .news t w sg => { r with sl := t.length, sc := t, xw := w, xs := sg }
  | .newb b sg => { placeX b r with xs := sg }
  | .tostr x => placeSeqX x r
  | .toint x => placeSeqX x r
  | .bits x => placeSeqX x r
  | .add x y => placePair x y r
  | .sub x y => placePair x y r
  | .eq x y => placePair x y r
  | .gt x y => placePair x y r
  | .lt x y => placePair x y r

/-- "The encoding of a line is its `OP` code (rule R61) with its operands on the ports of rule R62" (R70). -/
def placeLine (p : Params) (r : Request) (l : Line) : Request := { placeOperands p r l with op := encode l.instr }

/-- The line that an operation's operand ports carry, or why the request has no meaning (R62, R69). -/
def readLine (p : Params) (r : Request) : Instr → Except Refusal Line
  | .xor => .ok (.xor r.a1 r.b1)
  | .hadd => .ok (.hadd r.a1 r.b1)
  | .fadd => .ok (.fadd r.c1 r.a1 r.b1)
  | .radd => (readRawPair p r).map fun ab => .radd ab.1 ab.2 r.c1
  | .inv => (readBitsX p r).map .inv
  | .tcn => (readRawX p r).map .tcn
  | .rsub => (readRawPair p r).map fun ab => .rsub ab.1 ab.2
  | .enc => (readWidth p r.xw).map fun w => .enc (readInt p r) w r.xs
  | .dec => (readBitsX p r).map fun v => .dec v r.xs
  | .bounds => (readWidth p r.xw).map fun w => .bounds w r.xs
  | .rchk => (readWidth p r.xw).map fun w => .rchk (readInt p r) w r.xs
  | .newi => (readWidth p r.xw).map fun w => .newi (readInt p r) w r.xs
  | .news => (readStringWidth p r).map fun tw => .news tw.1 tw.2 r.xs
  | .newb => (readRawX p r).map fun b => .newb b r.xs
  | .tostr => (readSeqX p r).map .tostr
  | .toint => (readSeqX p r).map .toint
  | .bits => (readSeqX p r).map .bits
  | .add => (readSeqPair p r).map fun xy => .add xy.1 xy.2
  | .sub => (readSeqPair p r).map fun xy => .sub xy.1 xy.2
  | .eq => (readSeqPair p r).map fun xy => .eq xy.1 xy.2
  | .gt => (readSeqPair p r).map fun xy => .gt xy.1 xy.2
  | .lt => (readSeqPair p r).map fun xy => .lt xy.1 xy.2

end Sys2Proof.Machine
end

