-- ==== Sys2Proof/Machine/Run.lean ====
section
/-! DEFINITION. The host around the block (70_reset_and_hazards.md R243): driving a request, a run of requests, and the
host's own copying of a result back to the input ports (10_state.md R28). None of it is state of the block. -/

namespace Sys2Proof.Machine

/-- The host drives every input port. -/
def State.drive (s : State) (r : Request) : State := { s with req := r }

/-- What the host learns from one request: the outputs, or that the request has no meaning. -/
inductive Reply where
  /-- The outputs of the evaluated request. -/
  | outputs (o : Outputs)
  /-- The request has no meaning (93_implementation_defined.md section 2). -/
  | refused (r : Refusal)
deriving DecidableEq, Repr

/-- Drive one request and take one step: the reply and the state after. A refused request leaves the ports as driven. -/
def State.issue (s : State) (r : Request) : Reply × State :=
  match step (s.drive r) with
  | .next t => (.outputs t.out, t)
  | .refused e => (.refused e, s.drive r)
  | .fault f => nomatch f

/-- "A run is a finite list of requests issued by the host" (R243): the replies in order, each request issued to the state
that the one before it left. -/
def hostRun : State → List Request → List Reply
  | _, [] => []
  | s, r :: rs => (s.issue r).1 :: hostRun (s.issue r).2 rs

/-- The reply of an instance to a request issued alone. -/
def replyAlone (p : Params) (r : Request) : Reply :=
  (State.issue { params := p, req := initialRequest, out := Outputs.undriven } r).1

/-! ## Copying a result to the input ports (30_encoding.md R70, "the host copies it to the input ports") -/

/-- A result sequence on X, with the result's signedness where the result has one. -/
def Outputs.copyToX (o : Outputs) (r : Request) : Request :=
  { r with xw := o.rl.getD 0, xb := rawBits (o.rb.getD []), xs := o.rs.getD r.xs }

/-- A result sequence on Y, with the result's signedness where the result has one. -/
def Outputs.copyToY (o : Outputs) (r : Request) : Request :=
  { r with yw := o.rl.getD 0, yb := rawBits (o.rb.getD []), ys := o.rs.getD r.ys }

/-- A result string on the string port. -/
def Outputs.copyToString (o : Outputs) (r : Request) : Request :=
  { r with sl := o.rl.getD 0, sc := o.rc.getD [] }

/-- A decimal result on the integer port. DESIGN CHOICE (log 20): a decimal that does not fit NW bits is put there modulo
`2^NW`; the spec gives no pattern for it (30_encoding.md R65, 93_implementation_defined.md U16) and `intWires` answers none. -/
def Outputs.copyToInt (nw : Nat) (o : Outputs) (r : Request) : Request := { r with n := intPattern nw (o.rd.getD 0) }

end Sys2Proof.Machine
end

