-- ==== Sys2Proof/Safety.lean ====
section
/-! DEFINITION. What the outputs of a step always satisfy, in the terms the statements use (10_state.md R22, R27;
30_encoding.md R63, R66, R67; 60_exceptions.md R210). -/

namespace Sys2Proof.Machine

/-- "Codes `8` to `15` are never produced" (R63). -/
def Outputs.statusKnown (o : Outputs) : Prop := ∀ c, o.st = some c → c.toNat ≤ 7

/-- On an error every output but the status has no value, except RD, RLO and RHI of RangeError, status 4 (R210). -/
def Outputs.errorBare (o : Outputs) : Prop :=
  ∀ c, o.st = some c → c ≠ 0#4 →
    o.rl = none ∧ o.rs = none ∧ o.rb = none ∧ o.rf0 = none ∧ o.rf1 = none ∧ o.rc = none ∧
    (c ≠ 4#4 → o.rd = none ∧ o.rlo = none ∧ o.rhi = none)

/-- `RL` says how many bits of `RB` are defined, at most `WMAX + 1` (R27). -/
def Outputs.bitsFit (p : Params) (o : Outputs) : Prop :=
  ∀ v, o.rb = some v → o.rl = some v.length ∧ v.length ≤ p.wmax + 1

/-- `RL` says how many characters of `RC` are defined; each is `0x30` or `0x31`, and the host can put the string back on the
string port (R66, D5). -/
def Outputs.charsFit (p : Params) (o : Outputs) : Prop :=
  ∀ t, o.rc = some t → o.rl = some t.length ∧ t.length ≤ p.wmax ∧ stringFits p t = true ∧ ∀ c ∈ t, c = 0x30#8 ∨ c = 0x31#8

/-- The invariants of R22 for a BitSequence on the outputs (one is there exactly when `RS` is driven): the length is the
width, the decimal is that of the bits and lies in the range, and a signed value has its leading bit set exactly when
it is negative. -/
def Outputs.sequenceValid (p : Params) (o : Outputs) : Prop :=
  ∀ sg, o.rs = some sg →
    ∃ (v : Bits) (d lo hi : Int),
      o.rl = some v.length ∧ o.rb = some (toWires v) ∧ o.rd = some d ∧ o.rlo = some lo ∧ o.rhi = some hi ∧
      1 ≤ v.length ∧ v.length ≤ p.wmax ∧ (lo, hi) = rangeBounds v.length sg ∧ lo ≤ d ∧ d ≤ hi ∧
      d = decodeBits v sg ∧ (sg = true → (msb v = true ↔ d < 0))

/-- The whole promise about the outputs of one request. -/
def Outputs.sound (p : Params) (o : Outputs) : Prop :=
  o.statusKnown ∧ o.errorBare ∧ o.bitsFit p ∧ o.charsFit p ∧ o.sequenceValid p

/-- The invariant of the model: the instance meets R7's constraints and the outputs keep their promise. -/
def State.Inv (s : State) : Prop := s.params.wf = true ∧ s.out.sound s.params

end Sys2Proof.Machine
end

