-- ==== Sys2Proof/Certificates/Slice0/Obligations.lean ====
section
/-! DEFINITION. The statements for the provers. An output that a record below does not set is undriven, so each equation
`exec i s = .next (s.present o)` says every output of the request and that the inputs and the parameters stay. The
hypotheses are on the operands alone: a reader of Machine/Operands.lean answers them. -/

open Sys2Proof Sys2Proof.Machine

/-! ## Decoding -/

/-- The 22 codes of 30_encoding.md R61 select their operations. -/
def Obligations.AssignedCodesSelectOperations : Prop :=
  decode 0x00#5 = .ok .xor ∧ decode 0x01#5 = .ok .hadd ∧ decode 0x02#5 = .ok .fadd ∧ decode 0x03#5 = .ok .radd ∧
  decode 0x04#5 = .ok .inv ∧ decode 0x05#5 = .ok .tcn ∧ decode 0x06#5 = .ok .rsub ∧ decode 0x08#5 = .ok .enc ∧
  decode 0x09#5 = .ok .dec ∧ decode 0x0A#5 = .ok .bounds ∧ decode 0x0B#5 = .ok .rchk ∧ decode 0x0C#5 = .ok .newi ∧
  decode 0x0D#5 = .ok .news ∧ decode 0x0E#5 = .ok .newb ∧ decode 0x10#5 = .ok .tostr ∧ decode 0x11#5 = .ok .toint ∧
  decode 0x12#5 = .ok .bits ∧ decode 0x14#5 = .ok .add ∧ decode 0x15#5 = .ok .sub ∧ decode 0x18#5 = .ok .eq ∧
  decode 0x19#5 = .ok .gt ∧ decode 0x1A#5 = .ok .lt

/-- The ten reserved codes of R68 are refused whatever the operands are, and no other code is reserved. -/
def Obligations.ReservedCodesAreRefused : Prop :=
  let reserved : List OpCode := [0x07#5, 0x0F#5, 0x13#5, 0x16#5, 0x17#5, 0x1B#5, 0x1C#5, 0x1D#5, 0x1E#5, 0x1F#5]
  (∀ s : State, s.req.op ∈ reserved → step s = .refused (.reservedCode s.req.op)) ∧
  ∀ c : OpCode, c ∉ reserved → ∃ i, decode c = .ok i

/-- One step evaluates the operation that OP selects, and OP alone selects it (R20, R60). -/
def Obligations.StepRunsSelectedOperation : Prop :=
  ∀ (s : State) (i : Instr), decode s.req.op = .ok i → step s = exec i s

/-- Encoding and decoding agree for every operation with every operand value of a well-formed line, strings of any length
among them (D5; log 10): placed on the ports over any earlier levels, the line selects its operation and reads back as
itself (R61, R62, R64, R65, R66, R70). -/
def Obligations.PlacedLineReadsBack : Prop :=
  ∀ (p : Params) (r : Request) (l : Line), p.wf = true → l.wf p = true →
    decode (placeLine p r l).op = .ok l.instr ∧ readLine p (placeLine p r l) l.instr = .ok l

/-- Whatever stands on the ports, the operands an operation reads make a well-formed line of that operation: widths as R69
demands, equal lengths for the raw adder (R44), integers within R65. A string of any length passes (D5; log 10). -/
def Obligations.ReadLineIsWellFormed : Prop :=
  ∀ (p : Params) (r : Request) (i : Instr) (l : Line), readLine p r i = .ok l → l.instr = i ∧ l.wf p = true

/-! ## Which requests have a meaning -/

/-- A request is evaluated exactly when its operands can be read, and refused for the reason the reading gives. -/
def Obligations.EvaluatedExactlyWhenReadable : Prop :=
  ∀ (i : Instr) (s : State),
    ((∃ t, exec i s = .next t) ↔ ∃ l, readLine s.params s.req i = .ok l) ∧
    ∀ e, exec i s = .refused e ↔ readLine s.params s.req i = .error e

/-- A width of 0 or above WMAX on a port that the operation reads refuses the request (R69, U3). -/
def Obligations.ImpossibleWidthIsRefused : Prop :=
  ∀ s : State,
    (s.req.xw = 0 ∨ s.params.wmax < s.req.xw →
      ∀ i ∈ [Instr.radd, .inv, .tcn, .rsub, .enc, .dec, .bounds, .rchk, .newi, .news, .newb, .tostr, .toint, .bits, .add,
          .sub, .eq, .gt, .lt],
        exec i s = .refused (.badWidth s.req.xw)) ∧
    (s.req.yw = 0 ∨ s.params.wmax < s.req.yw →
      (∀ a, readRawX s.params s.req = .ok a →
        ∀ i ∈ [Instr.radd, .rsub], exec i s = .refused (.badWidth s.req.yw)) ∧
      (∀ x, readSeqX s.params s.req = .ok x →
        ∀ i ∈ [Instr.add, .sub, .eq, .gt, .lt], exec i s = .refused (.badWidth s.req.yw)))

/-- The model's own reading of what no port can carry, not a rule of the spec: a non-Boolean element in an operand of an
operation that has no InvalidBitError is never coerced but refused (log 8), X before Y (log 9). -/
def Obligations.UncarriableOperandIsRefused : Prop :=
  ∀ s : State,
    (∀ a, readRawX s.params s.req = .ok a → .other ∈ a →
      ∀ i ∈ [Instr.inv, .dec, .tostr, .toint, .bits, .add, .sub, .eq, .gt, .lt], exec i s = .refused .notABit) ∧
    (∀ x b, readSeqX s.params s.req = .ok x → readRawY s.params s.req = .ok b → .other ∈ b →
      ∀ i ∈ [Instr.add, .sub, .eq, .gt, .lt], exec i s = .refused .notABit)

/-- "an input that an operation does not read has no effect on its result" (R26): two requests from which an operation
reads the same line get the same outputs, on any two instances with the same parameters. -/
def Obligations.OnlyReadPortsMatter : Prop :=
  ∀ (i : Instr) (s t : State), s.params = t.params →
    readLine s.params s.req i = readLine t.params t.req i →
    ∀ s', exec i s = .next s' → exec i t = .next (t.present s'.out)

/-- Wires at or above the width and characters at or above the string length are not read (R26, R69): changing them
changes neither an operation's outputs nor a refusal. -/
def Obligations.WiresAboveWidthAreNotRead : Prop :=
  ∀ (s : State) (xb yb : List RawBit) (sc : List Byte),
    (∀ k < s.req.xw, xb.getD k (.bool false) = s.req.xb.getD k (.bool false)) →
    (∀ k < s.req.yw, yb.getD k (.bool false) = s.req.yb.getD k (.bool false)) →
    (∀ k < s.req.sl, sc.getD k 0#8 = s.req.sc.getD k 0#8) →
    ∀ i,
      (∀ t, exec i s = .next t →
        exec i (s.drive { s.req with xb := xb, yb := yb, sc := sc }) =
          .next ((s.drive { s.req with xb := xb, yb := yb, sc := sc }).present t.out)) ∧
      (∀ e, exec i s = .refused e → exec i (s.drive { s.req with xb := xb, yb := yb, sc := sc }) = .refused e)

/-! ## Bit-logic primitives (42_bit_logic.md) -/

/-- XOR (R140), InvalidBitError included. -/
def Obligations.XorAnswersWhetherBitsDiffer : Prop :=
  decode 0x00#5 = .ok .xor ∧
  ∀ s : State,
    (∀ a b, s.req.a1 = .bool a → s.req.b1 = .bool b →
      exec .xor s = .next (s.present { Outputs.undriven with st := some 0#4, rf0 := some (decide (a ≠ b)) })) ∧
    (s.req.a1 = .other ∨ s.req.b1 = .other →
      exec .xor s = .next (s.present { Outputs.undriven with st := some 1#4 }))

/-- HADD (R141): sum and carry, and the two together are the arithmetic sum. -/
def Obligations.HalfAdderSumAndCarry : Prop :=
  decode 0x01#5 = .ok .hadd ∧
  ∀ s : State,
    (∀ a b, s.req.a1 = .bool a → s.req.b1 = .bool b →
      exec .hadd s =
        .next (s.present
          { Outputs.undriven with st := some 0#4, rf0 := some (decide (a ≠ b)), rf1 := some (a && b) }) ∧
      a.toNat + b.toNat = 2 * (a && b).toNat + (decide (a ≠ b)).toNat) ∧
    (s.req.a1 = .other ∨ s.req.b1 = .other →
      exec .hadd s = .next (s.present { Outputs.undriven with st := some 1#4 }))

/-- FADD (R142): two half adders in a chain, the carries joined by OR; the outputs are the arithmetic sum (R150). -/
def Obligations.FullAdderSumAndCarry : Prop :=
  decode 0x02#5 = .ok .fadd ∧
  ∀ s : State,
    (∀ c a b, s.req.c1 = .bool c → s.req.a1 = .bool a → s.req.b1 = .bool b →
      let s1 := decide (a ≠ b)
      let c1 := a && b
      let s2 := decide (c ≠ s1)
      let c2 := c && s1
      exec .fadd s =
        .next (s.present { Outputs.undriven with st := some 0#4, rf0 := some s2, rf1 := some (c2 || c1) }) ∧
      c.toNat + a.toNat + b.toNat = 2 * (c2 || c1).toNat + s2.toNat) ∧
    (s.req.c1 = .other ∨ s.req.a1 = .other ∨ s.req.b1 = .other →
      exec .fadd s = .next (s.present { Outputs.undriven with st := some 1#4 }))

/-- RADD (R143, R67): the list of the exact sum, the carry prepended and on RF1; InvalidBitError; unequal lengths refused. -/
def Obligations.RippleAddGivesExactSum : Prop :=
  decode 0x03#5 = .ok .radd ∧
  ∀ s : State,
    (∀ A B c, readRawPair s.params s.req = .ok (rawBits A, rawBits B) → s.req.c1 = .bool c →
      ∃ (S : Bits) (k : Bit),
        exec .radd s =
          .next (s.present
            { Outputs.undriven with
                st := some 0#4, rl := some (A.length + k.toNat),
                rb := some (if k then true :: S else S).reverse, rf1 := some k }) ∧
        S.length = A.length ∧ uval S + 2 ^ A.length * k.toNat = uval A + uval B + c.toNat) ∧
    (∀ a b, readRawPair s.params s.req = .ok (a, b) → .other ∈ a ∨ .other ∈ b ∨ s.req.c1 = .other →
      exec .radd s = .next (s.present { Outputs.undriven with st := some 1#4 })) ∧
    (∀ a b, readRawX s.params s.req = .ok a → readRawY s.params s.req = .ok b → a.length ≠ b.length →
      exec .radd s = .refused (.unequalLengths a.length b.length))

/-- INV (R145): every bit inverted. -/
def Obligations.InvertComplementsEveryBit : Prop :=
  decode 0x04#5 = .ok .inv ∧
  ∀ (s : State) (A : Bits), readBitsX s.params s.req = .ok A →
    ∃ B : Bits,
      exec .inv s =
        .next (s.present { Outputs.undriven with st := some 0#4, rl := some A.length, rb := some B.reverse }) ∧
      B.length = A.length ∧ (∀ k (h : k < A.length), B[k]? = some (!A[k])) ∧ B.map (! ·) = A ∧
      uval B + uval A + 1 = 2 ^ A.length

/-- TCN (R146): `L` bits, the negation modulo `2^L` (R147 (a)); RF1 tells the all-zero operand. That a non-Boolean element
raises InvalidBitError is R140, R200, R201 and R208 with the raw bits of log 7; R146 itself names no error. -/
def Obligations.NegatorGivesNegationModulo : Prop :=
  decode 0x05#5 = .ok .tcn ∧
  ∀ s : State,
    (∀ A, readRawX s.params s.req = .ok (rawBits A) →
      ∃ S : Bits,
        exec .tcn s =
          .next (s.present
            { Outputs.undriven with
                st := some 0#4, rl := some A.length, rb := some S.reverse,
                rf1 := some (decide (A = List.replicate A.length false)) }) ∧
        S.length = A.length ∧ uval S = (2 ^ A.length - uval A) % 2 ^ A.length) ∧
    (∀ a, readRawX s.params s.req = .ok a → .other ∈ a →
      exec .tcn s = .next (s.present { Outputs.undriven with st := some 1#4 }))

/-- The laws of the negator (R147): value, involution, fixed points, and the signed reading. -/
def Obligations.NegatorLaws : Prop :=
  ∀ A : Bits, 1 ≤ A.length →
    (twosComplement A).1.length = A.length ∧
    uval (twosComplement A).1 = (2 ^ A.length - uval A) % 2 ^ A.length ∧
    (twosComplement (twosComplement A).1).1 = A ∧
    ((twosComplement A).1 = A ↔
      A = List.replicate A.length false ∨ A = true :: List.replicate (A.length - 1) false) ∧
    (A ≠ true :: List.replicate (A.length - 1) false →
      decodeBits (twosComplement A).1 true = - decodeBits A true) ∧
    (A = true :: List.replicate (A.length - 1) false → decodeBits A true = - ((2 ^ (A.length - 1) : Nat) : Int))

/-- Two TCN requests, the result of the first copied to X, give back the first operand (R147 (b), source property). -/
def Obligations.NegatingTwiceRestoresOperand : Prop :=
  ∀ (s : State) (A : Bits), readRawX s.params s.req = .ok (rawBits A) →
    ∃ t u, exec .tcn s = .next t ∧ exec .tcn (t.drive (t.out.copyToX t.req)) = .next u ∧
      u.out.rl = some A.length ∧ u.out.rb = some A.reverse

/-- RSUB (R148, R149, R67): the difference modulo `2^L`, and what the carry tells; unequal lengths are refused (R44). That a
non-Boolean element raises InvalidBitError is R140, R200, R201 and R208 with the raw bits of log 7. -/
def Obligations.RippleSubtractGivesDifferenceModulo : Prop :=
  decode 0x06#5 = .ok .rsub ∧
  ∀ s : State,
    (∀ A B, readRawPair s.params s.req = .ok (rawBits A, rawBits B) →
      ∃ (S : Bits) (k : Bit),
        exec .rsub s =
          .next (s.present
            { Outputs.undriven with
                st := some 0#4, rl := some (A.length + k.toNat),
                rb := some (if k then true :: S else S).reverse, rf1 := some k }) ∧
        S.length = A.length ∧ uval S = (2 ^ A.length + uval A - uval B) % 2 ^ A.length ∧
        (k = true ↔ uval B ≠ 0 ∧ uval B ≤ uval A)) ∧
    (∀ a b, readRawPair s.params s.req = .ok (a, b) → .other ∈ a ∨ .other ∈ b →
      exec .rsub s = .next (s.present { Outputs.undriven with st := some 1#4 })) ∧
    (∀ a b, readRawX s.params s.req = .ok a → readRawY s.params s.req = .ok b → a.length ≠ b.length →
      exec .rsub s = .refused (.unequalLengths a.length b.length))

/-- "subtraction is addition of the negated subtrahend" (R148): a TCN request on Y's bits, its result copied back to Y, and
a RADD request with carry-in 0 give the outputs of the RSUB request. -/
def Obligations.SubtractionIsAdditionOfNegation : Prop :=
  ∀ (s : State) (A B : Bits), readRawPair s.params s.req = .ok (rawBits A, rawBits B) →
    ∃ t u,
      exec .tcn (s.drive { s.req with xw := s.req.yw, xb := s.req.yb }) = .next t ∧
      exec .radd (s.drive { t.out.copyToY s.req with c1 := .bool false }) = .next u ∧
      exec .rsub s = .next (s.present u.out)

/-! ## Codec (41_codec.md) -/

/-- ENC (R120), case by case (R121): what the bits are for every integer, in range or not, and what they decode to. -/
def Obligations.EncodeCaseByCase : Prop :=
  ∀ (s : State) (w : Nat), readWidth s.params s.req.xw = .ok w →
    ∃ r : Bits,
      exec .enc s = .next (s.present { Outputs.undriven with st := some 0#4, rl := some w, rb := some r.reverse }) ∧
      r.length = w ∧
      (s.req.xs = false →
        (readInt s.params s.req < 0 → r = List.replicate w false) ∧
        (0 ≤ readInt s.params s.req → readInt s.params s.req < ((2 ^ w : Nat) : Int) →
          (uval r : Int) = readInt s.params s.req ∧ decodeBits r false = readInt s.params s.req) ∧
        (((2 ^ w : Nat) : Int) ≤ readInt s.params s.req → r = List.replicate w true)) ∧
      (s.req.xs = true →
        (0 ≤ readInt s.params s.req → readInt s.params s.req < ((2 ^ w : Nat) : Int) →
          (uval r : Int) = readInt s.params s.req) ∧
        (0 ≤ readInt s.params s.req → readInt s.params s.req < ((2 ^ (w - 1) : Nat) : Int) →
          decodeBits r true = readInt s.params s.req) ∧
        (((2 ^ (w - 1) : Nat) : Int) ≤ readInt s.params s.req → readInt s.params s.req < ((2 ^ w : Nat) : Int) →
          decodeBits r true = readInt s.params s.req - ((2 ^ w : Nat) : Int)) ∧
        (((2 ^ w : Nat) : Int) ≤ readInt s.params s.req → r = List.replicate w true) ∧
        (-((2 ^ w : Nat) : Int) < readInt s.params s.req → readInt s.params s.req < 0 →
          (uval r : Int) = ((2 ^ w : Nat) : Int) + readInt s.params s.req) ∧
        (-((2 ^ (w - 1) : Nat) : Int) ≤ readInt s.params s.req → readInt s.params s.req < 0 →
          msb r = true ∧ decodeBits r true = readInt s.params s.req) ∧
        (-((2 ^ w : Nat) : Int) < readInt s.params s.req →
          readInt s.params s.req < -((2 ^ (w - 1) : Nat) : Int) →
          msb r = false ∧ decodeBits r true = readInt s.params s.req + ((2 ^ w : Nat) : Int)) ∧
        (readInt s.params s.req ≤ -((2 ^ w : Nat) : Int) → r = oneOf w))

/-- DEC is the two's-complement value, or the positional value of an unsigned sequence (R123, R124). -/
def Obligations.DecodeIsTwosComplementValue : Prop :=
  decode 0x09#5 = .ok .dec ∧
  ∀ (s : State) (v : Bits), readBitsX s.params s.req = .ok v →
    exec .dec s =
      .next (s.present
        { Outputs.undriven with
            st := some 0#4,
            rd := some (if s.req.xs then (uval v : Int) - ((2 ^ v.length * (msb v).toNat : Nat) : Int)
              else (uval v : Int)) })

/-- The sign bit of a signed value, and that an unsigned value is never negative (R126). -/
def Obligations.SignBitTellsNegative : Prop :=
  ∀ (s : State) (v : Bits), readBitsX s.params s.req = .ok v →
    ∃ d : Int, exec .dec s = .next (s.present { Outputs.undriven with st := some 0#4, rd := some d }) ∧
      (s.req.xs = true → (msb v = true ↔ d < 0)) ∧ (s.req.xs = false → 0 ≤ d)

/-- ENC and DEC are inverse bijections between the range and the bit patterns (R125). -/
def Obligations.CodecRoundTrip : Prop :=
  (∀ (n : Int) (w : Nat) (sg : Bit), 1 ≤ w → inRange n w sg = true → decodeBits (encodeInt n w sg) sg = n) ∧
  (∀ (v : Bits) (sg : Bit), 1 ≤ v.length → encodeInt (decodeBits v sg) v.length sg = v)

/-- The round trip through two requests, the result copied to the input ports (R125, R70): an integer in range through ENC
and DEC, and bits through DEC and ENC where the integer port is wide enough for every decimal (R65). -/
def Obligations.CodecRoundTripOnPorts : Prop :=
  (∀ (s : State) (w : Nat), readWidth s.params s.req.xw = .ok w → inRange (readInt s.params s.req) w s.req.xs = true →
    ∃ t u, exec .enc s = .next t ∧ exec .dec (t.drive (t.out.copyToX t.req)) = .next u ∧
      u.out.rd = some (readInt s.params s.req)) ∧
  (∀ (s : State) (v : Bits), readBitsX s.params s.req = .ok v → s.params.wmax + 1 ≤ s.params.nw →
    ∃ t u, exec .dec s = .next t ∧ exec .enc (t.drive (t.out.copyToInt s.params.nw t.req)) = .next u ∧
      u.out.rb = some v.reverse)

/-! ## Range validation, construction and read-out (40_construction_and_range.md) -/

/-- BOUNDS (R100): the representable range, `2^W` integers. -/
def Obligations.BoundsOfWidth : Prop :=
  decode 0x0A#5 = .ok .bounds ∧
  ∀ (s : State) (w : Nat), readWidth s.params s.req.xw = .ok w →
    ∃ lo hi : Int,
      exec .bounds s =
        .next (s.present { Outputs.undriven with st := some 0#4, rlo := some lo, rhi := some hi }) ∧
      (s.req.xs = true → lo = -((2 ^ (w - 1) : Nat) : Int) ∧ hi = ((2 ^ (w - 1) : Nat) : Int) - 1) ∧
      (s.req.xs = false → lo = 0 ∧ hi = ((2 ^ w : Nat) : Int) - 1) ∧
      hi - lo = ((2 ^ w : Nat) : Int) - 1

/-- RCHK (R101, R204): ok exactly inside the closed range, else RangeError with the value and the range. -/
def Obligations.RangeCheckTestsTheInteger : Prop :=
  decode 0x0B#5 = .ok .rchk ∧
  ∀ (s : State) (w : Nat) (lo hi : Int), readWidth s.params s.req.xw = .ok w → (lo, hi) = rangeBounds w s.req.xs →
    (lo ≤ readInt s.params s.req ∧ readInt s.params s.req ≤ hi →
      exec .rchk s = .next (s.present { Outputs.undriven with st := some 0#4 })) ∧
    (readInt s.params s.req < lo ∨ hi < readInt s.params s.req →
      exec .rchk s =
        .next (s.present
          { Outputs.undriven with
              st := some 4#4, rd := some (readInt s.params s.req), rlo := some lo, rhi := some hi }))

/-- NEWI (R102): inside the range the BitSequence whose decimal is `n`, outside it RangeError. -/
def Obligations.ConstructFromInteger : Prop :=
  decode 0x0C#5 = .ok .newi ∧
  ∀ (s : State) (w : Nat) (lo hi : Int), readWidth s.params s.req.xw = .ok w → (lo, hi) = rangeBounds w s.req.xs →
    (lo ≤ readInt s.params s.req ∧ readInt s.params s.req ≤ hi →
      ∃ v : Bits,
        exec .newi s =
          .next (s.present
            { Outputs.undriven with
                st := some 0#4, rl := some w, rs := some s.req.xs, rb := some v.reverse,
                rd := some (readInt s.params s.req), rlo := some lo, rhi := some hi }) ∧
        v.length = w ∧ decodeBits v s.req.xs = readInt s.params s.req) ∧
    (readInt s.params s.req < lo ∨ hi < readInt s.params s.req →
      exec .newi s =
        .next (s.present
          { Outputs.undriven with
              st := some 4#4, rd := some (readInt s.params s.req), rlo := some lo, rhi := some hi }))

/-- NEWS (R103): a bad character first, then the length, then the BitSequence that the digits spell. Which error a string
with both defects reports is the spec's decision D10, no word of its source (log 14); the bytes 0x30 and 0x31 are presumed
(R42, R66, D21; log 15). -/
def Obligations.ConstructFromString : Prop :=
  decode 0x0D#5 = .ok .news ∧
  ∀ (s : State) (t : List Byte) (w : Nat), readStringWidth s.params s.req = .ok (t, w) →
    ((∃ c ∈ t, c ≠ 0x30#8 ∧ c ≠ 0x31#8) →
      exec .news s = .next (s.present { Outputs.undriven with st := some 2#4 })) ∧
    ((∀ c ∈ t, c = 0x30#8 ∨ c = 0x31#8) → t.length ≠ w →
      exec .news s = .next (s.present { Outputs.undriven with st := some 3#4 })) ∧
    ((∀ c ∈ t, c = 0x30#8 ∨ c = 0x31#8) → t.length = w →
      ∃ v : Bits,
        exec .news s =
          .next (s.present
            { Outputs.undriven with
                st := some 0#4, rl := some w, rs := some s.req.xs, rb := some v.reverse,
                rd := some (decodeBits v s.req.xs), rlo := some (rangeBounds w s.req.xs).1,
                rhi := some (rangeBounds w s.req.xs).2 }) ∧
        v.length = w ∧ ∀ k (h : k < t.length), v[k]? = some (decide (t[k] = 0x31#8)))

/-- NEWS on a string longer than the string port (SL above SMAX), where R66 gives no ports: D5 lets a string have any length,
so R103's errors stand, and a legal width is never such a length (R7). The reading through D5 is log 10's, the order of the
errors and the bytes are logs 14 and 15. -/
def Obligations.StringLongerThanPortIsAnError : Prop :=
  ∀ (s : State) (w : Nat), s.params.wf = true → readWidth s.params s.req.xw = .ok w → s.params.smax < s.req.sl →
    ((∃ k < s.req.sl, s.req.sc.getD k 0#8 ≠ 0x30#8 ∧ s.req.sc.getD k 0#8 ≠ 0x31#8) →
      exec .news s = .next (s.present { Outputs.undriven with st := some 2#4 })) ∧
    ((∀ k < s.req.sl, s.req.sc.getD k 0#8 = 0x30#8 ∨ s.req.sc.getD k 0#8 = 0x31#8) →
      exec .news s = .next (s.present { Outputs.undriven with st := some 3#4 }))

/-- NEWB (R104, R201): a non-Boolean element raises InvalidBitError, else the bits are the BitSequence. -/
def Obligations.ConstructFromBits : Prop :=
  decode 0x0E#5 = .ok .newb ∧
  ∀ s : State,
    (∀ b, readRawX s.params s.req = .ok b → .other ∈ b →
      exec .newb s = .next (s.present { Outputs.undriven with st := some 1#4 })) ∧
    (∀ v, readRawX s.params s.req = .ok (rawBits v) →
      exec .newb s =
        .next (s.present
          { Outputs.undriven with
              st := some 0#4, rl := some v.length, rs := some s.req.xs, rb := some v.reverse,
              rd := some (decodeBits v s.req.xs), rlo := some (rangeBounds v.length s.req.xs).1,
              rhi := some (rangeBounds v.length s.req.xs).2 }))

/-- "every bit sequence `v` of length `W`" decodes into the representable range (R108). -/
def Obligations.BitPatternsAreAlwaysInRange : Prop :=
  ∀ (v : Bits) (sg : Bit), 1 ≤ v.length →
    (rangeBounds v.length sg).1 ≤ decodeBits v sg ∧ decodeBits v sg ≤ (rangeBounds v.length sg).2

/-- TOSTR (R105): one character per bit, most significant first, whatever the signedness. R105 names characters; their bytes
0x30 and 0x31 are presumed (R42, R66, D21; log 15). -/
def Obligations.ReadOutString : Prop :=
  decode 0x10#5 = .ok .tostr ∧
  ∀ (s : State) (x : SeqOperand), readSeqX s.params s.req = .ok x →
    ∃ t : List Byte,
      exec .tostr s =
        .next (s.present { Outputs.undriven with st := some 0#4, rl := some x.bits.length, rc := some t }) ∧
      t.length = x.bits.length ∧
      ∀ k (h : k < x.bits.length), t[k]? = some (if x.bits[k] then 0x31#8 else 0x30#8)

/-- TOINT (R106): the decimal of the value under its signedness. -/
def Obligations.ReadOutInteger : Prop :=
  decode 0x11#5 = .ok .toint ∧
  ∀ (s : State) (x : SeqOperand), readSeqX s.params s.req = .ok x →
    exec .toint s =
      .next (s.present { Outputs.undriven with st := some 0#4, rd := some (decodeBits x.bits x.signed) })

/-- BITS (R107): the bits, most significant first, which is wire `W-1` first. -/
def Obligations.ReadOutBits : Prop :=
  decode 0x12#5 = .ok .bits ∧
  ∀ (s : State) (x : SeqOperand), readSeqX s.params s.req = .ok x →
    exec .bits s =
      .next (s.present
        { Outputs.undriven with st := some 0#4, rl := some x.bits.length, rb := some x.bits.reverse })

/-- The round trips of R109 through requests, each result copied to the input ports: (a) ENC then DEC, (b) NEWI, TOSTR,
NEWS and TOINT, (c) NEWI then TOINT, (d) BITS then NEWB. -/
def Obligations.ConstructionRoundTrips : Prop :=
  (∀ (s : State) (w : Nat), readWidth s.params s.req.xw = .ok w →
    inRange (readInt s.params s.req) w s.req.xs = true →
    (∃ t u, exec .enc s = .next t ∧ exec .dec (t.drive (t.out.copyToX t.req)) = .next u ∧
      u.out.rd = some (readInt s.params s.req)) ∧
    (∃ t1 t2 t3 t4, exec .newi s = .next t1 ∧ exec .tostr (t1.drive (t1.out.copyToX t1.req)) = .next t2 ∧
      exec .news (t2.drive (t2.out.copyToString t2.req)) = .next t3 ∧ t3.out = t1.out ∧
      exec .toint (t3.drive (t3.out.copyToX t3.req)) = .next t4 ∧ t4.out.rd = some (readInt s.params s.req)) ∧
    (∃ t u, exec .newi s = .next t ∧ exec .toint (t.drive (t.out.copyToX t.req)) = .next u ∧
      u.out.rd = some (readInt s.params s.req))) ∧
  (∀ (s : State) (x : SeqOperand), readSeqX s.params s.req = .ok x →
    ∃ t u, exec .bits s = .next t ∧ exec .newb (t.drive (t.out.copyToX t.req)) = .next u ∧
      u.out.rl = some x.bits.length ∧ u.out.rs = some x.signed ∧ u.out.rb = some x.bits.reverse)

/-! ## Arithmetic operators (43_arithmetic.md) -/

/-- Unsigned ADD as integers (R161): the exact sum, or OverflowError; there is no wrap-around. -/
def Obligations.UnsignedAddition : Prop :=
  ∀ (s : State) (x y : SeqOperand), readSeqPair s.params s.req = .ok (x, y) → x.signed = false → y.signed = false →
    x.bits.length = y.bits.length →
    (uval x.bits + uval y.bits ≤ 2 ^ x.bits.length - 1 →
      ∃ v : Bits,
        exec .add s =
          .next (s.present
            { Outputs.undriven with
                st := some 0#4, rl := some x.bits.length, rs := some false, rb := some v.reverse,
                rd := some ((uval x.bits + uval y.bits : Nat) : Int), rlo := some 0,
                rhi := some (((2 ^ x.bits.length : Nat) : Int) - 1) }) ∧
        v.length = x.bits.length ∧ uval v = uval x.bits + uval y.bits) ∧
    (2 ^ x.bits.length - 1 < uval x.bits + uval y.bits →
      exec .add s = .next (s.present { Outputs.undriven with st := some 6#4 }))

/-- Signed ADD as integers, under both settings of SIGNED_OVF_CHECK (R162, R163): the exact sum in range; outside it the
wrapped sum with the parameter false and OverflowError with the parameter true. -/
def Obligations.SignedAddition : Prop :=
  ∀ (s : State) (x y : SeqOperand) (w : Nat) (t d : Int), readSeqPair s.params s.req = .ok (x, y) →
    x.signed = true → y.signed = true → x.bits.length = w → y.bits.length = w →
    t = decodeBits x.bits true + decodeBits y.bits true →
    (d = if t < -((2 ^ (w - 1) : Nat) : Int) then t + ((2 ^ w : Nat) : Int)
      else if ((2 ^ (w - 1) : Nat) : Int) ≤ t then t - ((2 ^ w : Nat) : Int) else t) →
    ((s.params.signedOvfCheck = false ∨
        (-((2 ^ (w - 1) : Nat) : Int) ≤ t ∧ t ≤ ((2 ^ (w - 1) : Nat) : Int) - 1)) →
      ∃ v : Bits,
        exec .add s =
          .next (s.present
            { Outputs.undriven with
                st := some 0#4, rl := some w, rs := some true, rb := some v.reverse, rd := some d,
                rlo := some (-((2 ^ (w - 1) : Nat) : Int)), rhi := some (((2 ^ (w - 1) : Nat) : Int) - 1) }) ∧
        v.length = w ∧ decodeBits v true = d) ∧
    (s.params.signedOvfCheck = true → (t < -((2 ^ (w - 1) : Nat) : Int) ∨ ((2 ^ (w - 1) : Nat) : Int) - 1 < t) →
      exec .add s = .next (s.present { Outputs.undriven with st := some 6#4 }))

/-- Unsigned SUB as integers (R165): the difference of a strictly greater minuend, else UnderflowError. -/
def Obligations.UnsignedSubtraction : Prop :=
  ∀ (s : State) (x y : SeqOperand), readSeqPair s.params s.req = .ok (x, y) → x.signed = false → y.signed = false →
    x.bits.length = y.bits.length →
    (uval y.bits < uval x.bits →
      ∃ v : Bits,
        exec .sub s =
          .next (s.present
            { Outputs.undriven with
                st := some 0#4, rl := some x.bits.length, rs := some false, rb := some v.reverse,
                rd := some ((uval x.bits : Int) - (uval y.bits : Int)), rlo := some 0,
                rhi := some (((2 ^ x.bits.length : Nat) : Int) - 1) }) ∧
        v.length = x.bits.length ∧ uval v + uval y.bits = uval x.bits) ∧
    (uval x.bits ≤ uval y.bits → exec .sub s = .next (s.present { Outputs.undriven with st := some 7#4 }))

/-- Signed SUB as integers (R166): the difference wrapped into the range, never an error, under either setting. -/
def Obligations.SignedSubtraction : Prop :=
  ∀ (s : State) (x y : SeqOperand) (w : Nat) (t : Int), readSeqPair s.params s.req = .ok (x, y) →
    x.signed = true → y.signed = true → x.bits.length = w → y.bits.length = w →
    t = decodeBits x.bits true - decodeBits y.bits true →
    ∃ (v : Bits) (d : Int),
      exec .sub s =
        .next (s.present
          { Outputs.undriven with
              st := some 0#4, rl := some w, rs := some true, rb := some v.reverse, rd := some d,
              rlo := some (-((2 ^ (w - 1) : Nat) : Int)), rhi := some (((2 ^ (w - 1) : Nat) : Int) - 1) }) ∧
      v.length = w ∧ decodeBits v true = d ∧
      d = (if t < -((2 ^ (w - 1) : Nat) : Int) then t + ((2 ^ w : Nat) : Int)
        else if ((2 ^ (w - 1) : Nat) : Int) ≤ t then t - ((2 ^ w : Nat) : Int) else t)

/-- IncompatibleOperandsError (R205): operands of different width or signedness, under ADD, SUB, GT and LT, before any
other error; EQ answers 0 instead, and no other operation ever raises it. -/
def Obligations.IncompatibleOperands : Prop :=
  (∀ (s : State) (x y : SeqOperand), readSeqPair s.params s.req = .ok (x, y) →
    x.signed ≠ y.signed ∨ x.bits.length ≠ y.bits.length →
    (∀ i ∈ [Instr.add, .sub, .gt, .lt], exec i s = .next (s.present { Outputs.undriven with st := some 5#4 })) ∧
    exec .eq s = .next (s.present { Outputs.undriven with st := some 0#4, rf0 := some false })) ∧
  ∀ i ∉ [Instr.add, .sub, .gt, .lt], ∀ s t : State, exec i s = .next t → t.out.st ≠ some 5#4

/-! ## Comparison operators (44_comparison.md) -/

/-- EQ (R180, R181): equality of the triples; on compatible operands, equality of the decimals. -/
def Obligations.EqualityOfValues : Prop :=
  decode 0x18#5 = .ok .eq ∧
  ∀ (s : State) (x y : SeqOperand), readSeqPair s.params s.req = .ok (x, y) →
    exec .eq s = .next (s.present { Outputs.undriven with st := some 0#4, rf0 := some (decide (x = y)) }) ∧
    (x.signed = y.signed → x.bits.length = y.bits.length →
      (x = y ↔ decodeBits x.bits x.signed = decodeBits y.bits y.signed))

/-- GT (R182) is the numeric order of the decimals (R183). -/
def Obligations.GreaterThanIsNumericOrder : Prop :=
  ∀ (s : State) (x y : SeqOperand), readSeqPair s.params s.req = .ok (x, y) → x.signed = y.signed →
    x.bits.length = y.bits.length →
    exec .gt s =
      .next (s.present
        { Outputs.undriven with
            st := some 0#4,
            rf0 := some (decide (decodeBits y.bits y.signed < decodeBits x.bits x.signed)) })

/-- The three comparisons partition the compatible pairs, LT (R184) is the numeric order and is GT of the swapped operands,
and on incompatible operands GT and LT raise the error while EQ answers 0 (R185). -/
def Obligations.ComparisonTrichotomy : Prop :=
  ∀ (s : State) (x y : SeqOperand), readSeqPair s.params s.req = .ok (x, y) →
    (x.signed = y.signed ∧ x.bits.length = y.bits.length →
      ∃ g e l : Bit,
        exec .gt s = .next (s.present { Outputs.undriven with st := some 0#4, rf0 := some g }) ∧
        exec .eq s = .next (s.present { Outputs.undriven with st := some 0#4, rf0 := some e }) ∧
        exec .lt s = .next (s.present { Outputs.undriven with st := some 0#4, rf0 := some l }) ∧
        g.toNat + e.toNat + l.toNat = 1 ∧
        (l = true ↔ decodeBits x.bits x.signed < decodeBits y.bits y.signed) ∧
        ∀ s' : State, readSeqPair s'.params s'.req = .ok (y, x) →
          exec .gt s' = .next (s'.present { Outputs.undriven with st := some 0#4, rf0 := some l })) ∧
    (x.signed ≠ y.signed ∨ x.bits.length ≠ y.bits.length →
      exec .gt s = .next (s.present { Outputs.undriven with st := some 5#4 }) ∧
      exec .lt s = .next (s.present { Outputs.undriven with st := some 5#4 }) ∧
      exec .eq s = .next (s.present { Outputs.undriven with st := some 0#4, rf0 := some false }))

/-! ## The whole machine -/

/-- Raising an error presents its status code, RangeError's value and range, and nothing else (R63, R204, R210). -/
def Obligations.RaisedErrorOutputs : Prop :=
  ∀ s : State,
    raiseError .invalidBit s = s.present { Outputs.undriven with st := some 1#4 } ∧
    raiseError .invalidDigit s = s.present { Outputs.undriven with st := some 2#4 } ∧
    raiseError .lengthMismatch s = s.present { Outputs.undriven with st := some 3#4 } ∧
    (∀ v lo hi, raiseError (.range v lo hi) s =
      s.present { Outputs.undriven with st := some 4#4, rd := some v, rlo := some lo, rhi := some hi }) ∧
    raiseError .incompatibleOperands s = s.present { Outputs.undriven with st := some 5#4 } ∧
    raiseError .overflow s = s.present { Outputs.undriven with st := some 6#4 } ∧
    raiseError .underflow s = s.present { Outputs.undriven with st := some 7#4 }

/-- Which status an operation can present: the error matrix of R208, in which InvalidBitError needs a raw bit that is no
strict Boolean on some bit port (R23, R201). -/
def Obligations.ErrorsPerOperation : Prop :=
  ∀ (i : Instr) (s t : State), exec i s = .next t →
    ∃ c, t.out.st = some c ∧
      c ∈ (match i with
        | .xor | .hadd | .fadd | .radd | .tcn | .rsub | .newb => [0#4, 1#4]
        | .inv | .enc | .dec | .bounds | .tostr | .toint | .bits | .eq => [0#4]
        | .rchk | .newi => [0#4, 4#4]
        | .news => [0#4, 2#4, 3#4]
        | .add => [0#4, 5#4, 6#4]
        | .sub => [0#4, 5#4, 7#4]
        | .gt | .lt => [0#4, 5#4]) ∧
      (c = 1#4 → .other ∈ s.req.a1 :: s.req.b1 :: s.req.c1 :: (s.req.xb ++ s.req.yb))

/-- An evaluated request changes nothing but the outputs: the operands are not changed (R25) and the parameters are never
changed (R31). -/
def Obligations.OperandsAndParametersStay : Prop :=
  (∀ (i : Instr) (s t : State), exec i s = .next t → t.params = s.params ∧ t.req = s.req) ∧
  (∀ s t : State, step s = .next t → t.params = s.params ∧ t.req = s.req)

/-- Every step, from every state with the invariant, leads to a state with it: known status codes (R63), nothing but the
error's own outputs beside an error (R210), lengths that fit (R27) and the presumed bytes 0x30 and 0x31 (R66, log 15), and a
valid BitSequence (R22). -/
def Obligations.StepKeepsInvariant : Prop :=
  ∀ s t : State, s.Inv → step s = .next t → t.Inv

/-- The state after reset has the invariant. -/
def Obligations.ResetHasInvariant : Prop := State.reset.Inv

/-- After reset no output has a value (R32). The input levels and the sizes WMAX and SMAX are the model's choice, not the
spec's (log 2, log 3); NW and SIGNED_OVF_CHECK are the reference values of R7. -/
def Obligations.ResetState : Prop :=
  State.reset.out = Outputs.undriven ∧ State.reset.params.nw = 64 ∧ State.reset.params.signedOvfCheck = true ∧
  State.reset.params.wf = true ∧ State.reset.req.xw = 1 ∧ State.reset.req.yw = 1 ∧ State.reset.req.op = 0#5

/-- The model's choice of input levels at reset (log 3) lets every operation be evaluated as the first one (log 5). -/
def Obligations.EveryOperationRunsFromReset : Prop :=
  ∀ i : Instr,
    decodeTableWord 8 (encode i).toNat = some i ∧
    ∃ t, step (State.reset.withFetchWord 8 (encode i).toNat) = .next t

/-- Every integer that a step presents fits its port when `NW >= WMAX + 1` (R65), and the port's wires carry it. -/
def Obligations.IntegerResultsFitTheirPorts : Prop :=
  ∀ s t : State, s.params.wmax + 1 ≤ s.params.nw → step s = .next t →
    ∀ v : Int, t.out.rd = some v ∨ t.out.rlo = some v ∨ t.out.rhi = some v →
      ∃ b, intWires s.params.nw v = some b ∧ b.toInt = v

/-- "the block gives the same result to a request wherever it stands in the list" (R29, R20, R211): a run's replies are
those of the requests issued alone, whatever the ports held before. -/
def Obligations.RunIsRequestByRequest : Prop :=
  ∀ (s : State) (rs : List Request), hostRun s rs = rs.map (replyAlone s.params)

/-- "every permutation of the list gives the same multiset of results" (R46). -/
def Obligations.PermutedRunGivesSameResults : Prop :=
  ∀ (s : State) (rs rs' : List Request), rs.Perm rs' → (hostRun s rs).Perm (hostRun s rs')
end

