-- ==== Sys2Proof/Laws/BitLogic.lean ====
section
/-! SUPPORT. The bit-logic primitives as arithmetic. -/

namespace Sys2Proof.Machine

/-- The arithmetic law of the full adder (42_bit_logic.md R150). -/
theorem fullAdder_law (c a b : Bit) :
    c.toNat + a.toNat + b.toNat = 2 * (fullAdder c a b).2.toNat + (fullAdder c a b).1.toNat := by
  cases c <;> cases a <;> cases b <;> rfl

@[simp] theorem uval_nil : uval [] = 0 := rfl

@[simp] theorem uval_cons (b : Bit) (t : Bits) : uval (b :: t) = b.toNat * 2 ^ t.length + uval t := rfl

/-- A sequence of length `L` is worth less than `2^L`. -/
theorem uval_lt (v : Bits) : uval v < 2 ^ v.length := by
  induction v with
  | nil => simp
  | cons b t ih =>
    have : b.toNat * 2 ^ t.length ≤ 1 * 2 ^ t.length := Nat.mul_le_mul_right _ (by cases b <;> simp)
    simp only [uval_cons, List.length_cons, Nat.pow_succ]
    omega

/-- Sequences of one length are told apart by their value. -/
theorem uval_inj {a b : Bits} (hl : a.length = b.length) (h : uval a = uval b) : a = b := by
  induction a generalizing b with
  | nil => exact (List.length_eq_zero_iff.mp hl.symm).symm
  | cons x t ih =>
    cases b with
    | nil => simp at hl
    | cons y u =>
      simp only [List.length_cons, Nat.add_right_cancel_iff] at hl
      have ht := uval_lt t
      have hu := uval_lt u
      simp only [uval_cons, hl] at h ht
      cases x <;> cases y <;> simp at h ⊢
      · exact ih hl h
      · omega
      · omega
      · exact ih hl h

@[simp] theorem rippleAdd_nil (b : Bits) (c : Bit) : rippleAdd [] b c = ([], c) := by cases b <;> rfl

theorem rippleAdd_cons (a b : Bit) (as bs : Bits) (c : Bit) :
    rippleAdd (a :: as) (b :: bs) c =
      ((fullAdder (rippleAdd as bs c).2 a b).1 :: (rippleAdd as bs c).1, (fullAdder (rippleAdd as bs c).2 a b).2) :=
  rfl

@[simp] theorem rippleAdd_length {a b : Bits} (c : Bit) (h : a.length = b.length) :
    (rippleAdd a b c).1.length = a.length := by
  induction a generalizing b with
  | nil => simp
  | cons x t ih =>
    cases b with
    | nil => simp at h
    | cons y u => simp [rippleAdd_cons, ih (by simpa using h)]

/-- The arithmetic law of the ripple-carry adder (R150). -/
theorem rippleAdd_law {a b : Bits} (c : Bit) (h : a.length = b.length) :
    uval (rippleAdd a b c).1 + 2 ^ a.length * (rippleAdd a b c).2.toNat = uval a + uval b + c.toNat := by
  induction a generalizing b with
  | nil =>
    obtain rfl := List.length_eq_zero_iff.mp h.symm
    simp
  | cons x t ih =>
    cases b with
    | nil => simp at h
    | cons y u =>
      have hl : t.length = u.length := by simpa using h
      have h1 := ih hl
      have h2 := fullAdder_law (rippleAdd t u c).2 x y
      have h3 := congrArg (2 ^ t.length * ·) h2
      simp only [Nat.mul_add] at h3
      simp only [rippleAdd_cons, uval_cons, List.length_cons, rippleAdd_length c hl, ← hl, Nat.pow_succ]
      ring_nf at h1 h3 ⊢
      omega

@[simp] theorem invert_length (a : Bits) : (invert a).length = a.length := List.length_map ..

/-- `uval(INV(A)) = 2^L - 1 - uval(A)` (R145). -/
theorem uval_invert (a : Bits) : uval (invert a) + uval a + 1 = 2 ^ a.length := by
  induction a with
  | nil => simp [invert]
  | cons b t ih =>
    have hl := invert_length t
    simp only [invert] at ih hl
    simp only [invert, List.map_cons, uval_cons, hl, List.length_cons, Nat.pow_succ]
    cases b <;> simp <;> omega

@[simp] theorem oneOf_length (l : Nat) : (oneOf l).length = l := by cases l <;> simp [oneOf]

@[simp] theorem uval_zeros (l : Nat) : uval (List.replicate l false) = 0 := by
  induction l with
  | zero => rfl
  | succ l ih => simp [List.replicate_succ, ih]

theorem uval_oneOf {l : Nat} (h : 1 ≤ l) : uval (oneOf l) = 1 := by
  obtain ⟨k, rfl⟩ : ∃ k, l = k + 1 := ⟨l - 1, by omega⟩
  simp only [oneOf]
  induction k with
  | zero => rfl
  | succ k ih => simpa [List.replicate_succ] using ih (by omega)

@[simp] theorem twosComplement_length (a : Bits) : (twosComplement a).1.length = a.length := by
  simp [twosComplement, rippleAdd_length]

/-- The sum bits and the dropped carry of the negator (R146, R147 (a)). -/
theorem twosComplement_law {a : Bits} (h : 1 ≤ a.length) :
    uval (twosComplement a).1 + 2 ^ a.length * (twosComplement a).2.toNat + uval a = 2 ^ a.length := by
  have h1 := rippleAdd_law (a := invert a) (b := oneOf a.length) false (by simp)
  have h2 := uval_invert a
  rw [uval_oneOf h] at h1
  simp only [invert_length, Bool.toNat_false] at h1
  change uval (rippleAdd (invert a) (oneOf a.length) false).1 +
    2 ^ a.length * (rippleAdd (invert a) (oneOf a.length) false).2.toNat + uval a = _
  omega

end Sys2Proof.Machine
end

