-- ==== Sys2Proof/Laws/Codec.lean ====
section
/-! SUPPORT. The codec as arithmetic. -/

namespace Sys2Proof.Machine

@[simp] theorem decompose_length (w : Nat) (r : Int) : (decompose w r).length = w := by
  induction w generalizing r with
  | zero => rfl
  | succ k ih => simp only [decompose]; split <;> simp [ih]

/-- A magnitude below `2^w` is decomposed exactly (41_codec.md R121). -/
theorem uval_decompose {w : Nat} {r : Int} (h0 : 0 ≤ r) (h : r < ((2 ^ w : Nat) : Int)) :
    (uval (decompose w r) : Int) = r := by
  induction w generalizing r with
  | zero =>
    simp only [Nat.pow_zero] at h
    simp only [decompose, uval_nil]
    omega
  | succ k ih =>
    simp only [Nat.pow_succ] at h
    simp only [decompose]
    split <;> rename_i hk
    · have := ih (r := r - ((2 ^ k : Nat) : Int)) (by omega) (by omega)
      simp only [uval_cons, decompose_length, Bool.toNat_true]
      push_cast at *
      omega
    · simpa using ih h0 (by omega)

/-- Every power fits a magnitude of `2^w` or more: the result saturates (R121, 90_conflicts.md C3). -/
theorem decompose_saturates {w : Nat} {r : Int} (h : ((2 ^ w : Nat) : Int) - 1 ≤ r) :
    decompose w r = List.replicate w true := by
  induction w generalizing r with
  | zero => rfl
  | succ k ih =>
    simp only [Nat.pow_succ] at h
    have hp : 0 < 2 ^ k := Nat.two_pow_pos k
    simp only [decompose]
    rw [if_pos (by omega), ih (by omega), List.replicate_succ]

/-- No power fits a negative residual (R121, D28). -/
theorem decompose_negative {w : Nat} {r : Int} (h : r < 0) : decompose w r = List.replicate w false := by
  induction w generalizing r with
  | zero => rfl
  | succ k ih =>
    have hp : 0 < 2 ^ k := Nat.two_pow_pos k
    simp only [decompose]
    rw [if_neg (by omega), ih h, List.replicate_succ]

@[simp] theorem encodeInt_length (n : Int) (w : Nat) (sg : Bit) : (encodeInt n w sg).length = w := by
  simp only [encodeInt]
  split <;> simp

/-- The leading bit is the half of the value's range (R9). -/
theorem msb_iff {v : Bits} (h : 1 ≤ v.length) : msb v = true ↔ 2 ^ (v.length - 1) ≤ uval v := by
  cases v with
  | nil => simp at h
  | cons b t =>
    have := uval_lt t
    simp only [msb, List.headD_cons, List.length_cons, Nat.add_sub_cancel, uval_cons]
    cases b <;> simp
    omega

/-- DEC by the closed form (R124). -/
theorem decodeBits_eq {v : Bits} (h : 1 ≤ v.length) (sg : Bit) :
    decodeBits v sg =
      if sg = true ∧ msb v = true then (uval v : Int) - ((2 ^ v.length : Nat) : Int) else (uval v : Int) := by
  unfold decodeBits
  by_cases hc : sg = true ∧ msb v = true
  · have hm := (msb_iff h).mp hc.2
    have hp : 0 < 2 ^ (v.length - 1) := Nat.two_pow_pos _
    have hl := twosComplement_law h
    have ht := uval_lt (twosComplement v).1
    rw [twosComplement_length] at ht
    rw [if_pos (by simp [hc]), if_pos hc]
    cases hcar : (twosComplement v).2 <;> simp [hcar] at hl <;> omega
  · rw [if_neg (by simpa using hc), if_neg hc]

theorem rangeBounds_signed (w : Nat) :
    rangeBounds w true = (-((2 ^ (w - 1) : Nat) : Int), ((2 ^ (w - 1) : Nat) : Int) - 1) := rfl

theorem rangeBounds_unsigned (w : Nat) : rangeBounds w false = (0, ((2 ^ w : Nat) : Int) - 1) := rfl

theorem inRange_iff {v : Int} {w : Nat} {sg : Bit} :
    inRange v w sg = true ↔ (rangeBounds w sg).1 ≤ v ∧ v ≤ (rangeBounds w sg).2 := by
  unfold inRange
  rw [Bool.and_eq_true, decide_eq_true_iff, decide_eq_true_iff]

theorem rangeCheck_ok_iff {v : Int} {w : Nat} {sg : Bit} : rangeCheck v w sg = .ok () ↔ inRange v w sg = true := by
  unfold rangeCheck
  split <;> simp_all

theorem rangeCheck_error_iff {v : Int} {w : Nat} {sg : Bit} {e : Error} :
    rangeCheck v w sg = .error e ↔
      inRange v w sg = false ∧ e = .range v (rangeBounds w sg).1 (rangeBounds w sg).2 := by
  unfold rangeCheck
  cases inRange v w sg <;> simp [eq_comm (a := e)]

end Sys2Proof.Machine
end

