-- ==== Sys2Proof/Laws/State.lean ====
section
/-! SUPPORT. The fields of a state after each update. -/

namespace Sys2Proof.Machine

@[simp] theorem present_params (s : State) (o : Outputs) : (s.present o).params = s.params := rfl
@[simp] theorem present_req (s : State) (o : Outputs) : (s.present o).req = s.req := rfl
@[simp] theorem present_out (s : State) (o : Outputs) : (s.present o).out = o := rfl

@[simp] theorem present_present (s : State) (o o' : Outputs) : (s.present o).present o' = s.present o' := rfl

@[simp] theorem raiseError_params (e : Error) (s : State) : (raiseError e s).params = s.params := rfl
@[simp] theorem raiseError_req (e : Error) (s : State) : (raiseError e s).req = s.req := rfl
@[simp] theorem raiseError_out (e : Error) (s : State) : (raiseError e s).out = errorOutputs e := rfl

@[simp] theorem drive_params (s : State) (r : Request) : (s.drive r).params = s.params := rfl
@[simp] theorem drive_req (s : State) (r : Request) : (s.drive r).req = r := rfl
@[simp] theorem drive_out (s : State) (r : Request) : (s.drive r).out = s.out := rfl

@[simp] theorem withFetchWord_params (s : State) (nbits w : Nat) : (s.withFetchWord nbits w).params = s.params := rfl
@[simp] theorem withFetchWord_out (s : State) (nbits w : Nat) : (s.withFetchWord nbits w).out = s.out := rfl
@[simp] theorem withFetchWord_op (s : State) (nbits w : Nat) :
    (s.withFetchWord nbits w).req.op = codeOfTableWord nbits w := rfl

@[simp] theorem placeLine_op (p : Params) (r : Request) (l : Line) : (placeLine p r l).op = encode l.instr := rfl

end Sys2Proof.Machine
end

