-- ==== Sys2Proof/Laws/Operands.lean ====
section
/-! SUPPORT. What the operand readers answer: one equivalence per reader, so that no proof unfolds them again. -/

namespace Sys2Proof.Machine

/-! ## Buses -/

@[simp] theorem takeWires_length (w : Nat) (bus : List RawBit) : (takeWires w bus).length = w := by
  simp [takeWires]

/-- A sequence placed on a bus reads back as itself. -/
theorem takeWires_toWires (v : List RawBit) : takeWires v.length (toWires v) = v := by
  apply List.ext_getElem
  · simp
  · intro k _ h
    simp only [takeWires, toWires, List.getElem_reverse, List.getElem_map, List.getElem_range, List.length_map,
      List.length_range]
    rw [List.getD_eq_getElem _ _ (by simp; omega), List.getElem_reverse]
    congr 1
    omega

/-- Only the wires below the width are read. -/
theorem takeWires_congr {w : Nat} {b b' : List RawBit}
    (h : ∀ k < w, b.getD k (.bool false) = b'.getD k (.bool false)) : takeWires w b = takeWires w b' := by
  unfold takeWires
  rw [List.map_congr_left fun k hk => h k (List.mem_range.mp hk)]

@[simp] theorem rawBits_length (v : Bits) : (rawBits v).length = v.length := List.length_map ..

@[simp] theorem toWires_rawBits (v : Bits) : toWires (rawBits v) = rawBits (toWires v) :=
  (List.map_reverse ..).symm

theorem strictBits?_eq_some_iff {v : List RawBit} {b : Bits} : strictBits? v = some b ↔ v = rawBits b := by
  induction v generalizing b with
  | nil => cases b <;> simp [strictBits?, rawBits]
  | cons a t ih =>
    cases a with
    | other => cases b <;> simp [strictBits?, rawBits]
    | bool a =>
      cases b with
      | nil => simp [strictBits?, rawBits]
      | cons c d => simp [strictBits?, rawBits, ih, and_comm]

@[simp] theorem strictBits?_rawBits (b : Bits) : strictBits? (rawBits b) = some b := strictBits?_eq_some_iff.mpr rfl

theorem strictBits?_eq_none_iff {v : List RawBit} : strictBits? v = none ↔ .other ∈ v := by
  induction v with
  | nil => simp [strictBits?]
  | cons a t ih => cases a <;> simp [strictBits?, ih]

@[simp] theorem rawBits_inj {a b : Bits} : rawBits a = rawBits b ↔ a = b :=
  ⟨fun h => by simpa using congrArg strictBits? h, congrArg _⟩

/-! ## Readers -/

theorem readWidth_ok_iff {p : Params} {w w' : Nat} : readWidth p w = .ok w' ↔ 1 ≤ w ∧ w ≤ p.wmax ∧ w' = w := by
  unfold readWidth
  split <;> rename_i h
  · simp [h.1, h.2, eq_comm]
  · simp only [reduceCtorEq, false_iff]
    tauto

theorem readWidth_error_iff {p : Params} {w : Nat} {e : Refusal} :
    readWidth p w = .error e ↔ (w = 0 ∨ p.wmax < w) ∧ e = .badWidth w := by
  unfold readWidth
  split <;> rename_i h
  · simp only [reduceCtorEq, false_iff, not_and]
    omega
  · simp only [Except.error.injEq, eq_comm (a := Refusal.badWidth w), iff_and_self]
    omega

theorem readRawX_ok_iff {p : Params} {r : Request} {a : List RawBit} :
    readRawX p r = .ok a ↔ 1 ≤ r.xw ∧ r.xw ≤ p.wmax ∧ a = takeWires r.xw r.xb := by
  cases h : readWidth p r.xw with
  | ok w =>
    obtain ⟨h1, h2, rfl⟩ := readWidth_ok_iff.mp h
    simp [readRawX, h, h1, h2, eq_comm]
  | error e =>
    have := (readWidth_error_iff.mp h).1
    simp only [readRawX, h, reduceCtorEq, false_iff]
    omega

theorem readRawY_ok_iff {p : Params} {r : Request} {a : List RawBit} :
    readRawY p r = .ok a ↔ 1 ≤ r.yw ∧ r.yw ≤ p.wmax ∧ a = takeWires r.yw r.yb := by
  cases h : readWidth p r.yw with
  | ok w =>
    obtain ⟨h1, h2, rfl⟩ := readWidth_ok_iff.mp h
    simp [readRawY, h, h1, h2, eq_comm]
  | error e =>
    have := (readWidth_error_iff.mp h).1
    simp only [readRawY, h, reduceCtorEq, false_iff]
    omega

theorem readRawPair_ok_iff {p : Params} {r : Request} {a b : List RawBit} :
    readRawPair p r = .ok (a, b) ↔ readRawX p r = .ok a ∧ readRawY p r = .ok b ∧ a.length = b.length := by
  unfold readRawPair
  cases readRawX p r with
  | error e => simp
  | ok x =>
    cases readRawY p r with
    | error e => simp
    | ok y =>
      by_cases h : x.length = y.length
      · simp only [h, if_true, Except.ok.injEq, Prod.mk.injEq]
        constructor
        · rintro ⟨rfl, rfl⟩; exact ⟨rfl, rfl, h⟩
        · rintro ⟨rfl, rfl, -⟩; exact ⟨rfl, rfl⟩
      · simp only [h, if_false, reduceCtorEq, Except.ok.injEq, false_iff, not_and]
        rintro rfl rfl
        exact h

theorem demandStrict_ok_iff {v : List RawBit} {b : Bits} : demandStrict v = .ok b ↔ v = rawBits b := by
  rw [← strictBits?_eq_some_iff]
  unfold demandStrict
  cases strictBits? v <;> simp

theorem readBitsX_ok_iff {p : Params} {r : Request} {v : Bits} :
    readBitsX p r = .ok v ↔ readRawX p r = .ok (rawBits v) := by
  unfold readBitsX
  cases readRawX p r <;> simp [demandStrict_ok_iff]

theorem readBitsY_ok_iff {p : Params} {r : Request} {v : Bits} :
    readBitsY p r = .ok v ↔ readRawY p r = .ok (rawBits v) := by
  unfold readBitsY
  cases readRawY p r <;> simp [demandStrict_ok_iff]

theorem readSeqX_ok_iff {p : Params} {r : Request} {x : SeqOperand} :
    readSeqX p r = .ok x ↔ x.signed = r.xs ∧ readBitsX p r = .ok x.bits := by
  unfold readSeqX
  cases readBitsX p r <;> cases x <;> simp [and_comm, eq_comm]

theorem readSeqY_ok_iff {p : Params} {r : Request} {x : SeqOperand} :
    readSeqY p r = .ok x ↔ x.signed = r.ys ∧ readBitsY p r = .ok x.bits := by
  unfold readSeqY
  cases readBitsY p r <;> cases x <;> simp [and_comm, eq_comm]

theorem readSeqPair_ok_iff {p : Params} {r : Request} {x y : SeqOperand} :
    readSeqPair p r = .ok (x, y) ↔ readSeqX p r = .ok x ∧ readSeqY p r = .ok y := by
  unfold readSeqPair
  cases readSeqX p r <;> cases readSeqY p r <;> simp

theorem readStringWidth_ok_iff {p : Params} {r : Request} {t : List Byte} {w : Nat} :
    readStringWidth p r = .ok (t, w) ↔ readWidth p r.xw = .ok w ∧ readString r = t := by
  unfold readStringWidth
  cases readWidth p r.xw <;> simp [and_comm]

@[simp] theorem readString_length (r : Request) : (readString r).length = r.sl := by simp [readString]

/-! ## Integers -/

theorem intFits_iff {nw : Nat} {n : Int} :
    intFits nw n = true ↔ -((2 ^ (nw - 1) : Nat) : Int) ≤ n ∧ n < ((2 ^ (nw - 1) : Nat) : Int) := by
  unfold intFits
  rw [Bool.and_eq_true, decide_eq_true_iff, decide_eq_true_iff]

/-- The value read from the integer port is always one that the port can carry (R65). -/
theorem readInt_fits (p : Params) (r : Request) : intFits p.nw (readInt p r) = true := by
  have h := BitVec.toInt_lt (x := BitVec.ofNat p.nw r.n)
  have h' := BitVec.le_toInt (x := BitVec.ofNat p.nw r.n)
  rw [intFits_iff]
  push_cast
  exact ⟨h', h⟩

/-- An integer placed on the port reads back as itself. -/
theorem toInt_ofInt_of_fits {nw : Nat} {n : Int} (hw : 0 < nw) (h : intFits nw n = true) :
    (BitVec.ofInt nw n).toInt = n := by
  obtain ⟨k, rfl⟩ : ∃ k, nw = k + 1 := ⟨nw - 1, by omega⟩
  rw [intFits_iff] at h
  rw [BitVec.toInt_ofInt]
  apply Int.bmod_eq_of_le <;> simp only [Nat.add_sub_cancel, Nat.pow_succ] at * <;> omega

theorem readInt_intPattern {p : Params} {r : Request} {n : Int} (hw : 0 < p.nw) (h : intFits p.nw n = true)
    (hr : r.n = intPattern p.nw n) : readInt p r = n := by
  rw [readInt, hr, intPattern, BitVec.ofNat_toNat, BitVec.setWidth_eq, toInt_ofInt_of_fits hw h]

end Sys2Proof.Machine
end

