-- ==== Sys2Proof/Laws/Ops.lean ====
section
/-! SUPPORT. What the shared operations can answer. -/

namespace Sys2Proof.Machine

variable {α : Type}

@[simp] theorem respond_ok (s : State) (drive : α → Outputs) (v : α) :
    respond s drive (.ok v) = .next (s.present (drive v)) := rfl

@[simp] theorem respond_error (s : State) (drive : α → Outputs) (e : Error) :
    respond s drive (.error e) = .next (raiseError e s) := rfl

/-- A response is always a next state: the result's outputs, or those of its error. -/
theorem respond_cases (s : State) (drive : α → Outputs) (x : Except Error α) :
    ∃ o, respond s drive x = .next (s.present o) ∧
      ((∃ v, x = .ok v ∧ o = drive v) ∨ ∃ e, x = .error e ∧ o = errorOutputs e) := by
  cases x with
  | ok v => exact ⟨drive v, rfl, .inl ⟨v, rfl, rfl⟩⟩
  | error e => exact ⟨errorOutputs e, rfl, .inr ⟨e, rfl, rfl⟩⟩

@[simp] theorem withOperand_ok (v : α) (k : α → Host.Outcome State Fault Refusal) :
    withOperand (.ok v) k = k v := rfl

@[simp] theorem withOperand_error (e : Refusal) (k : α → Host.Outcome State Fault Refusal) :
    withOperand (.error e) k = .refused e := rfl

/-- A next state comes from an operand that was read. -/
theorem withOperand_next {x : Except Refusal α} {k : α → Host.Outcome State Fault Refusal} {t : State}
    (h : withOperand x k = .next t) : ∃ v, x = .ok v ∧ k v = .next t := by
  cases x with
  | ok v => exact ⟨v, rfl, h⟩
  | error e => cases h

/-- The outputs of an error have its status and, but for RangeError, nothing else. -/
@[simp] theorem errorOutputs_st (e : Error) : (errorOutputs e).st = some (errorCode e) := by cases e <;> rfl

end Sys2Proof.Machine
end

