-- ==== Sys2Proof/Laws/PerInstr.lean ====
section
/-! SUPPORT. Statements about every operation, one lemma per constructor. -/

namespace Sys2Proof.Laws

/-- Decoding an operation's code gives the operation back. -/
def CodeRoundTrip.Statement (i : Instr) : Prop := decode (encode i) = .ok i

theorem CodeRoundTrip.xor : CodeRoundTrip.Statement .xor := rfl
theorem CodeRoundTrip.hadd : CodeRoundTrip.Statement .hadd := rfl
theorem CodeRoundTrip.fadd : CodeRoundTrip.Statement .fadd := rfl
theorem CodeRoundTrip.radd : CodeRoundTrip.Statement .radd := rfl
theorem CodeRoundTrip.inv : CodeRoundTrip.Statement .inv := rfl
theorem CodeRoundTrip.tcn : CodeRoundTrip.Statement .tcn := rfl
theorem CodeRoundTrip.rsub : CodeRoundTrip.Statement .rsub := rfl
theorem CodeRoundTrip.enc : CodeRoundTrip.Statement .enc := rfl
theorem CodeRoundTrip.dec : CodeRoundTrip.Statement .dec := rfl
theorem CodeRoundTrip.bounds : CodeRoundTrip.Statement .bounds := rfl
theorem CodeRoundTrip.rchk : CodeRoundTrip.Statement .rchk := rfl
theorem CodeRoundTrip.newi : CodeRoundTrip.Statement .newi := rfl
theorem CodeRoundTrip.news : CodeRoundTrip.Statement .news := rfl
theorem CodeRoundTrip.newb : CodeRoundTrip.Statement .newb := rfl
theorem CodeRoundTrip.tostr : CodeRoundTrip.Statement .tostr := rfl
theorem CodeRoundTrip.toint : CodeRoundTrip.Statement .toint := rfl
theorem CodeRoundTrip.bits : CodeRoundTrip.Statement .bits := rfl
theorem CodeRoundTrip.add : CodeRoundTrip.Statement .add := rfl
theorem CodeRoundTrip.sub : CodeRoundTrip.Statement .sub := rfl
theorem CodeRoundTrip.eq : CodeRoundTrip.Statement .eq := rfl
theorem CodeRoundTrip.gt : CodeRoundTrip.Statement .gt := rfl
theorem CodeRoundTrip.lt : CodeRoundTrip.Statement .lt := rfl

/-- No two rows of the operation table can be selected by one code (30_encoding.md R61). -/
theorem opTable_disjoint :
    opTable.Pairwise fun a b => (a.pattern ^^^ b.pattern) &&& (a.mask &&& b.mask) ≠ 0#5 := by decide

end Sys2Proof.Laws
end

