-- ==== Sys2Proof/Tests/Slice0.lean ====
section
/-! SUPPORT. The model's own tests. Expected values are the spec's examples (95_test_vectors.md and the "Example" and "Corner
cases" lines of the rules named), never the model's answers. The last part meets the hypotheses of the statements. -/

namespace Sys2Proof.Tests

open Sys2Proof.Machine

/-! ## Helpers -/

/-- The `w` binary digits of a numeral, most significant first. -/
def bin (w n : Nat) : Bits := (List.range w).reverse.map n.testBit

/-- A string's characters, one byte each. -/
def chars (t : List Char) : List Byte := t.map fun c => BitVec.ofNat 8 c.toNat

/-- An instance with the least sizes that show a width boundary. -/
def small : Params := { wmax := 8, nw := 64, smax := 9, signedOvfCheck := true }

/-- The same instance without the signed overflow check. -/
def unchecked : Params := { small with signedOvfCheck := false }

/-- A state with a line on the ports. -/
def on (p : Params) (l : Line) : State := { params := p, req := placeLine p initialRequest l, out := Outputs.undriven }

/-- The outputs of one step. -/
def outputs (p : Params) (l : Line) : Option Outputs :=
  match step (on p l) with
  | .next t => some t.out
  | _ => none

def u (w n : Nat) : SeqOperand := { signed := false, bits := bin w n }

def s (w n : Nat) : SeqOperand := { signed := true, bits := bin w n }

def one : RawBit := .bool true

def zero : RawBit := .bool false

/-! ## WellFormed: each check refuses an ill-formed line -/

theorem test_wf_zero_width : (Line.bounds 0 false).wf small = false := by decide
theorem test_wf_wide : (Line.tcn (rawBits (bin 9 0))).wf small = false ∧ (Line.tcn (rawBits (bin 8 0))).wf small = true := by
  decide
theorem test_wf_unequal : (Line.radd (rawBits (bin 3 1)) (rawBits (bin 2 1)) zero).wf small = false := by decide
theorem test_wf_int :
    (Line.enc (2 ^ 63) 8 true).wf small = false ∧ (Line.enc (2 ^ 63 - 1) 8 true).wf small = true ∧
      (Line.enc (-2 ^ 63 - 1) 8 true).wf small = false ∧ (Line.enc (-2 ^ 63) 8 true).wf small = true := by decide
theorem test_wf_string :
    (Line.news (List.replicate 9 0x30#8) 0 false).wf small = false ∧
      (Line.news (List.replicate 10 0x30#8) 8 false).wf small = true ∧
      stringFits small (List.replicate 10 0x30#8) = false ∧ stringFits small (List.replicate 9 0x30#8) = true := by decide
theorem test_wf_pair : (Line.add (u 8 1) (u 0 0)).wf small = false := by decide

/-! ## Decode: the codes of 30_encoding.md R61, in binary as its table writes them -/

theorem test_decode_logic :
    decode 0b00000#5 = .ok .xor ∧ decode 0b00001#5 = .ok .hadd ∧ decode 0b00010#5 = .ok .fadd ∧
      decode 0b00011#5 = .ok .radd ∧ decode 0b00100#5 = .ok .inv ∧ decode 0b00101#5 = .ok .tcn ∧
      decode 0b00110#5 = .ok .rsub := ⟨rfl, rfl, rfl, rfl, rfl, rfl, rfl⟩
theorem test_decode_codec :
    decode 0b01000#5 = .ok .enc ∧ decode 0b01001#5 = .ok .dec ∧ decode 0b01010#5 = .ok .bounds ∧
      decode 0b01011#5 = .ok .rchk ∧ decode 0b01100#5 = .ok .newi ∧ decode 0b01101#5 = .ok .news ∧
      decode 0b01110#5 = .ok .newb := ⟨rfl, rfl, rfl, rfl, rfl, rfl, rfl⟩
theorem test_decode_value :
    decode 0b10000#5 = .ok .tostr ∧ decode 0b10001#5 = .ok .toint ∧ decode 0b10010#5 = .ok .bits ∧
      decode 0b10100#5 = .ok .add ∧ decode 0b10101#5 = .ok .sub ∧ decode 0b11000#5 = .ok .eq ∧
      decode 0b11001#5 = .ok .gt ∧ decode 0b11010#5 = .ok .lt := ⟨rfl, rfl, rfl, rfl, rfl, rfl, rfl, rfl⟩
theorem test_decode_reserved :
    decode 0b00111#5 = .error (.reservedCode 0b00111#5) ∧ decode 0b01111#5 = .error (.reservedCode 0b01111#5) ∧
      decode 0b10011#5 = .error (.reservedCode 0b10011#5) ∧ decode 0b11111#5 = .error (.reservedCode 0b11111#5) :=
  ⟨rfl, rfl, rfl, rfl⟩
theorem test_decodeTableWord :
    decodeTableWord 8 0x14 = some .add ∧ decodeTableWord 8 0x07 = none ∧ decodeTableWord 5 0x1A = some .lt := by decide
theorem test_step_reserved : step (State.reset.withFetchWord 8 0x16) = .refused (.reservedCode 0x16#5) := rfl

/-! ## One step of each operation -/

/-- R140: `XOR 1, 0 -> 1`. -/
theorem test_xor : (outputs small (.xor one zero)).map (fun o => (o.st, o.rf0, o.rf1)) = some (some 0#4, some true, none) := by
  decide
/-- R140, R201: not a strict Boolean. -/
theorem test_xor_other : (outputs small (.xor one .other)).map (fun o => (o.st, o.rf0)) = some (some 1#4, none) := by decide
/-- R141: `HADD 1, 1 -> (0, 1)`. -/
theorem test_hadd : (outputs small (.hadd one one)).map (fun o => (o.rf0, o.rf1)) = some (some false, some true) := by decide
/-- R142: `FADD 1, 1, 0 -> (0, 1)`, and the row 1, 0, 0. -/
theorem test_fadd : (outputs small (.fadd one one zero)).map (fun o => (o.rf0, o.rf1)) = some (some false, some true) := by
  decide
theorem test_fadd_carry_in :
    (outputs small (.fadd one zero zero)).map (fun o => (o.rf0, o.rf1)) = some (some true, some false) := by decide
/-- R143: `RADD b"0101", b"0011", 1 -> b"1001"`. -/
theorem test_radd :
    (outputs small (.radd (rawBits (bin 4 0b0101)) (rawBits (bin 4 0b0011)) one)).map (fun o => (o.rl, o.rb, o.rf1)) =
      some (some 4, some (bin 4 0b1001).reverse, some false) := by decide
/-- R143: `RADD b"11001000", b"11001000", 0 -> b"110010000"`, nine bits. -/
theorem test_radd_carry :
    (outputs small (.radd (rawBits (bin 8 0b11001000)) (rawBits (bin 8 0b11001000)) zero)).map
        (fun o => (o.rl, o.rb, o.rf1)) =
      some (some 9, some (bin 9 0b110010000).reverse, some true) := by decide
/-- R145: `INV b"11001000" -> b"00110111"`. -/
theorem test_inv :
    (outputs small (.inv (bin 8 0b11001000))).map (fun o => (o.rl, o.rb)) =
      some (some 8, some (bin 8 0b00110111).reverse) := by decide
/-- R146: `TCN b"11001000" -> b"00111000"`. -/
theorem test_tcn :
    (outputs small (.tcn (rawBits (bin 8 0b11001000)))).map (fun o => (o.rl, o.rb, o.rf1)) =
      some (some 8, some (bin 8 0b00111000).reverse, some false) := by decide
/-- R146: `TCN b"00000000" -> b"00000000"` with `RF1 = 1`. -/
theorem test_tcn_zeros :
    (outputs small (.tcn (rawBits (bin 8 0)))).map (fun o => (o.rl, o.rb, o.rf1)) =
      some (some 8, some (bin 8 0).reverse, some true) := by decide
/-- R148: `RSUB b"11001000", b"10100010" -> b"100100110"`. -/
theorem test_rsub :
    (outputs small (.rsub (rawBits (bin 8 0b11001000)) (rawBits (bin 8 0b10100010)))).map
        (fun o => (o.rl, o.rb, o.rf1)) =
      some (some 9, some (bin 9 0b100100110).reverse, some true) := by decide
/-- R148: `RSUB b"0011", b"0101" -> b"1110"`. -/
theorem test_rsub_below :
    (outputs small (.rsub (rawBits (bin 4 0b0011)) (rawBits (bin 4 0b0101)))).map (fun o => (o.rl, o.rb, o.rf1)) =
      some (some 4, some (bin 4 0b1110).reverse, some false) := by decide
/-- R121: `ENC -129, w=8, signed -> b"01111111"`. -/
theorem test_enc_wraps :
    (outputs small (.enc (-129) 8 true)).map (fun o => (o.st, o.rb)) =
      some (some 0#4, some (bin 8 0b01111111).reverse) := by decide
/-- R121: `ENC 256, w=8, unsigned -> b"11111111"`. -/
theorem test_enc_saturates :
    (outputs small (.enc 256 8 false)).map (fun o => (o.st, o.rb)) =
      some (some 0#4, some (bin 8 0b11111111).reverse) := by decide
/-- R123: `DEC b"10100010", signed -> -94` and unsigned 162. -/
theorem test_dec : (outputs small (.dec (bin 8 0b10100010) true)).map (·.rd) = some (some (-94)) := by decide
theorem test_dec_unsigned : (outputs small (.dec (bin 8 0b10100010) false)).map (·.rd) = some (some 162) := by decide
/-- R100: `BOUNDS w=8, signed -> (-128, 127)`; `BOUNDS w=8, unsigned -> (0, 255)`. -/
theorem test_bounds : (outputs small (.bounds 8 true)).map (fun o => (o.rlo, o.rhi)) = some (some (-128), some 127) := by
  decide
theorem test_bounds_unsigned :
    (outputs small (.bounds 8 false)).map (fun o => (o.rlo, o.rhi)) = some (some 0, some 255) := by decide
/-- R101: `RCHK 255, w=8, unsigned -> ok`. -/
theorem test_rchk : outputs small (.rchk 255 8 false) = some { Outputs.undriven with st := some 0#4 } := by decide
/-- R101: `RCHK -129, w=8, signed -> !RangeError(-129, -128, 127)`. -/
theorem test_rchk_out :
    outputs small (.rchk (-129) 8 true) =
      some { Outputs.undriven with st := some 4#4, rd := some (-129), rlo := some (-128), rhi := some 127 } := by decide
/-- R102: `NEWI -128, w=8, signed -> s"10000000"`. -/
theorem test_newi :
    (outputs small (.newi (-128) 8 true)).map (fun o => (o.rl, o.rs, o.rb, o.rd)) =
      some (some 8, some true, some (bin 8 0b10000000).reverse, some (-128)) := by decide
/-- R102: `NEWI 128, w=8, signed -> !RangeError(128, -128, 127)`. -/
theorem test_newi_out :
    (outputs small (.newi 128 8 true)).map (fun o => (o.st, o.rb, o.rd, o.rlo, o.rhi)) =
      some (some 4#4, none, some 128, some (-128), some 127) := by decide
/-- R103: `NEWS "10100010", w=8, unsigned -> u"10100010"` with `decimal = 162`. -/
theorem test_news :
    (outputs small (.news (chars ['1', '0', '1', '0', '0', '0', '1', '0']) 8 false)).map (fun o => (o.rb, o.rd)) =
      some (some (bin 8 0b10100010).reverse, some 162) := by decide
/-- R103: `NEWS "1010001x", w=8, unsigned -> !InvalidDigitError`. -/
theorem test_news_digit :
    (outputs small (.news (chars ['1', '0', '1', '0', '0', '0', '1', 'x']) 8 false)).map (·.st) = some (some 2#4) := by
  decide
/-- R104: `NEWB b"10000000", signed -> s"10000000"` with `decimal = -128`. -/
theorem test_newb :
    (outputs small (.newb (rawBits (bin 8 0b10000000)) true)).map (fun o => (o.rl, o.rs, o.rd)) =
      some (some 8, some true, some (-128)) := by decide
/-- R105: `TOSTR s"10000000" -> "10000000"`. -/
theorem test_tostr :
    (outputs small (.tostr (s 8 0b10000000))).map (fun o => (o.rl, o.rc)) =
      some (some 8, some (chars ['1', '0', '0', '0', '0', '0', '0', '0'])) := by decide
/-- R106: `TOINT s"11111111" -> -1`; `TOINT u"11111111" -> 255`. -/
theorem test_toint : (outputs small (.toint (s 8 0b11111111))).map (·.rd) = some (some (-1)) := by decide
theorem test_toint_unsigned : (outputs small (.toint (u 8 0b11111111))).map (·.rd) = some (some 255) := by decide
/-- R107: `BITS u"1010" -> b"1010"`. -/
theorem test_bits :
    (outputs small (.bits (u 4 0b1010))).map (fun o => (o.rl, o.rb)) = some (some 4, some (bin 4 0b1010).reverse) := by
  decide
/-- R160: `ADD u"11001000", u"11001000" -> !OverflowError`. -/
theorem test_add_overflow : (outputs small (.add (u 8 200) (u 8 200))).map (fun o => (o.st, o.rb)) = some (some 6#4, none) := by
  decide
/-- R162: 127 + 1 at `W = 8` under both settings: an error, or -128. -/
theorem test_add_signed :
    (outputs small (.add (s 8 127) (s 8 1))).map (fun o => (o.st, o.rd)) = some (some 6#4, none) ∧
      (outputs unchecked (.add (s 8 127) (s 8 1))).map (fun o => (o.st, o.rd)) = some (some 0#4, some (-128)) := by decide
/-- R164: `SUB u"11001000", u"10100010" -> u"00100110"`, decimal 38. -/
theorem test_sub :
    (outputs small (.sub (u 8 200) (u 8 162))).map (fun o => (o.rl, o.rb, o.rd)) =
      some (some 8, some (bin 8 0b00100110).reverse, some 38) := by decide
/-- R164, R166: unsigned `SUB(x, x)` raises; `-128 - 1 = 127` at `W = 8`. -/
theorem test_sub_corners :
    (outputs small (.sub (u 8 5) (u 8 5))).map (·.st) = some (some 7#4) ∧
      (outputs small (.sub (s 8 0b10000000) (s 8 1))).map (fun o => (o.st, o.rd)) = some (some 0#4, some 127) := by decide
/-- R180: `EQ u"0101", u"0101" -> 1`; `EQ u"0101", s"0101" -> 0`. -/
theorem test_eq :
    (outputs small (.eq (u 4 5) (u 4 5))).map (·.rf0) = some (some true) ∧
      (outputs small (.eq (u 4 5) (s 4 5))).map (fun o => (o.st, o.rf0)) = some (some 0#4, some false) := by decide
/-- R182: `GT s"0111", s"1000" -> 1`; R183: `GT u"0101", u"1000" -> 0`. -/
theorem test_gt :
    (outputs small (.gt (s 4 0b0111) (s 4 0b1000))).map (·.rf0) = some (some true) ∧
      (outputs small (.gt (u 4 0b0101) (u 4 0b1000))).map (·.rf0) = some (some false) := by decide
/-- R184: `LT s"1000", s"0111" -> 1`; an error on different widths. -/
theorem test_lt :
    (outputs small (.lt (s 4 0b1000) (s 4 0b0111))).map (·.rf0) = some (some true) ∧
      (outputs small (.lt (u 4 5) (u 8 5))).map (·.st) = some (some 5#4) := by decide

/-! ## The hypotheses of the statements are met, each clause at a boundary of its range -/

/-- States with raw port levels. -/
def ports (r : Request) : State := { params := small, req := r, out := Outputs.undriven }

theorem witness_ReservedCodesAreRefused :
    (ports { initialRequest with op := 0x07#5 }).req.op ∈ [0x07#5, 0x1F#5] ∧
      (ports { initialRequest with op := 0x1F#5 }).req.op ∈ [0x07#5, 0x1F#5] ∧
      0x1A#5 ∉ [0x07#5, 0x0F#5, 0x13#5, 0x16#5, 0x17#5, 0x1B#5, 0x1C#5, 0x1D#5, 0x1E#5, 0x1F#5] := by decide

theorem witness_StepRunsSelectedOperation : decode (State.reset.withFetchWord 8 0x1A).req.op = .ok .lt := rfl

/-- Lines at the ends of the widths, the integers and the strings are well formed. -/
theorem witness_PlacedLineReadsBack :
    small.wf = true ∧
      ∀ l ∈ [Line.xor .other one, .hadd zero .other, .fadd one zero .other, .radd [one] [.other] zero, .inv (bin 8 255),
          .tcn [.other], .rsub [one] [zero], .enc (-2 ^ 63) 8 true, .dec (bin 1 1) true, .bounds 1 true,
          .rchk (2 ^ 63 - 1) 1 false, .newi (-2 ^ 63) 8 false, .news [] 1 true, .news (List.replicate 10 0x78#8) 8 false,
          .newb [.other, one] true, .tostr (s 8 128), .toint (u 1 1), .bits (s 1 0), .add (u 1 1) (s 8 1),
          .sub (s 8 0) (s 8 128), .eq (u 1 0) (u 8 0), .gt (s 1 1) (s 1 0), .lt (u 8 0) (u 8 255)],
        l.wf small = true := by decide

theorem witness_ReadLineIsWellFormed :
    readLine small (on small (.add (u 8 255) (s 1 1))).req .add = .ok (.add (u 8 255) (s 1 1)) := rfl

/-- Widths 0 and WMAX + 1 on either port, with a readable first operand where the clause asks for one. -/
theorem witness_ImpossibleWidthIsRefused :
    (∀ w ∈ [0, 9], (ports { initialRequest with xw := w }).req.xw = 0 ∨
      small.wmax < (ports { initialRequest with xw := w }).req.xw) ∧
    (∀ w ∈ [0, 9], ((ports { initialRequest with yw := w }).req.yw = 0 ∨
      small.wmax < (ports { initialRequest with yw := w }).req.yw)) ∧
    (∀ w, readRawX small (ports { initialRequest with yw := w }).req = .ok [zero]) ∧
    ∀ w, readSeqX small (ports { initialRequest with yw := w }).req = .ok (u 1 0) :=
  ⟨by decide, by decide, fun _ => rfl, fun _ => rfl⟩

/-- A non-Boolean element on X, and one on Y beside a strict X. -/
theorem witness_UncarriableOperandIsRefused :
    readRawX small (ports { initialRequest with xb := [.other] }).req = .ok [.other] ∧
      readSeqX small (ports { initialRequest with yw := 2, yb := [one, .other] }).req = .ok (u 1 0) ∧
      readRawY small (ports { initialRequest with yw := 2, yb := [one, .other] }).req = .ok [.other, one] ∧
      RawBit.other ∈ [.other, one] := ⟨rfl, rfl, rfl, by decide⟩

/-- Two requests that differ in every port that RADD does not read. -/
theorem witness_OnlyReadPortsMatter :
    readLine small (ports initialRequest).req .radd =
        readLine small
          (ports { initialRequest with
            op := 0x1F#5, a1 := .other, b1 := .other, xs := true, xb := [zero, one], ys := true, yb := [zero, .other],
            n := 7, sl := 3, sc := [0x78#8] }).req .radd ∧
      (∃ t, exec .radd (ports initialRequest) = .next t) ∧
      ports initialRequest ≠ ports { initialRequest with a1 := .other } := ⟨rfl, ⟨_, rfl⟩, by decide⟩

theorem witness_WiresAboveWidthAreNotRead :
    (∀ k < (ports initialRequest).req.xw,
        [zero, .other].getD k (.bool false) = (ports initialRequest).req.xb.getD k (.bool false)) ∧
      (∀ k < (ports initialRequest).req.yw,
        [zero, one].getD k (.bool false) = (ports initialRequest).req.yb.getD k (.bool false)) ∧
      (∀ k < (ports initialRequest).req.sl, [0x78#8].getD k 0#8 = (ports initialRequest).req.sc.getD k 0#8) ∧
      (∃ t, exec .add (ports initialRequest) = .next t) ∧
      ∃ e, exec .add (ports { initialRequest with yw := 9 }) = .refused e := by
  refine ⟨by decide, by decide, by decide, ⟨_, rfl⟩, ⟨_, rfl⟩⟩

/-- XorAnswersWhetherBitsDiffer, HalfAdderSumAndCarry, FullAdderSumAndCarry: every row of the tables, and a raw bit that
is none on `A1` and `C1`. -/
theorem witness_SingleBitOperands :
    (∀ a b : Bool, (on small (.xor (.bool a) (.bool b))).req.a1 = .bool a ∧
      (on small (.xor (.bool a) (.bool b))).req.b1 = .bool b) ∧
    (∀ c a b : Bool, (on small (.fadd (.bool c) (.bool a) (.bool b))).req.c1 = .bool c ∧
      (on small (.fadd (.bool c) (.bool a) (.bool b))).req.a1 = .bool a ∧
      (on small (.fadd (.bool c) (.bool a) (.bool b))).req.b1 = .bool b) ∧
    (on small (.hadd .other one)).req.a1 = .other ∧ (on small (.fadd .other one one)).req.c1 = .other := by decide

/-- RippleAddGivesExactSum, RippleSubtractGivesDifferenceModulo, SubtractionIsAdditionOfNegation: lengths 1 and WMAX, a raw
element, and unequal lengths. -/
theorem witness_RawPairs :
    readRawPair small (on small (.radd (rawBits [true]) (rawBits [true]) one)).req =
        .ok (rawBits [true], rawBits [true]) ∧
      (on small (.radd (rawBits [true]) (rawBits [true]) one)).req.c1 = .bool true ∧
      readRawPair small (on small (.rsub (rawBits (bin 8 0)) (rawBits (bin 8 255)))).req =
        .ok (rawBits (bin 8 0), rawBits (bin 8 255)) ∧
      readRawPair small (on small (.radd [zero] [.other] zero)).req = .ok ([zero], [.other]) ∧
      RawBit.other ∈ [RawBit.other] ∧
      (on small (.radd [zero] [zero] .other)).req.c1 = .other ∧
      readRawX small (on small (.radd [zero, one] [one] zero)).req = .ok [zero, one] ∧
      readRawY small (on small (.radd [zero, one] [one] zero)).req = .ok [one] ∧ [zero, one].length ≠ [one].length :=
  ⟨rfl, rfl, rfl, rfl, by decide, rfl, rfl, rfl, by decide⟩

/-- InvertComplementsEveryBit, NegatorGivesNegationModulo, NegatingTwiceRestoresOperand, DecodeIsTwosComplementValue,
SignBitTellsNegative, ConstructFromBits: the least and the greatest length, the fixed points, and a raw element. -/
theorem witness_BitSequencesOnX :
    readBitsX small (on small (.inv [true])).req = .ok [true] ∧
      readBitsX small (on small (.dec (bin 8 128) true)).req = .ok (bin 8 128) ∧
      (on small (.dec (bin 8 128) true)).req.xs = true ∧ (on small (.dec (bin 8 128) false)).req.xs = false ∧
      readRawX small (on small (.tcn (rawBits (bin 8 0)))).req = .ok (rawBits (bin 8 0)) ∧
      readRawX small (on small (.newb (rawBits (bin 8 128)) true)).req = .ok (rawBits (bin 8 128)) ∧
      readRawX small (on small (.newb [one, .other] true)).req = .ok [one, .other] ∧
      RawBit.other ∈ [one, .other] := ⟨rfl, rfl, rfl, rfl, rfl, rfl, rfl, by decide⟩

/-- NegatorLaws and BitPatternsAreAlwaysInRange: length 1, and both sides of the fixed point. -/
theorem witness_NegatorLaws :
    1 ≤ [true].length ∧ bin 8 1 ≠ true :: List.replicate 7 false ∧ bin 8 128 = true :: List.replicate 7 false := by decide

/-- Every case of EncodeCaseByCase at its ends, for width 8. -/
theorem witness_EncodeCaseByCase :
    (∀ n sg, readWidth small (on small (.enc n 8 sg)).req.xw = .ok 8) ∧
      (∀ sg, ∀ n ∈ [(-257 : Int), -256, -255, -129, -128, -1, 0, 127, 128, 255, 256, 2 ^ 63 - 1, -2 ^ 63],
        readInt small (on small (.enc n 8 sg)).req = n ∧ (on small (.enc n 8 sg)).req.xs = sg) :=
  ⟨fun _ _ => rfl, by decide⟩

theorem witness_CodecRoundTrip :
    (∀ x ∈ [((-128 : Int), 8, true), (127, 8, true), (0, 8, false), (255, 8, false), (-1, 1, true), (1, 1, false)],
      1 ≤ x.2.1 ∧ inRange x.1 x.2.1 x.2.2 = true) ∧ 1 ≤ [true].length := by decide

/-- CodecRoundTripOnPorts and ConstructionRoundTrips at the least signed value. -/
theorem witness_CodecRoundTripOnPorts :
    readWidth small (on small (.enc (-128) 8 true)).req.xw = .ok 8 ∧
      inRange (readInt small (on small (.enc (-128) 8 true)).req) 8 (on small (.enc (-128) 8 true)).req.xs = true ∧
      readBitsX small (on small (.dec (bin 8 128) true)).req = .ok (bin 8 128) ∧ small.wmax + 1 ≤ small.nw ∧
      small.wf = true := ⟨rfl, by decide, rfl, by decide, by decide⟩

/-- BoundsOfWidth, RangeCheckTestsTheInteger, ConstructFromInteger: both bounds and the integers next to them. -/
theorem witness_RangeClauses :
    (∀ v sg, readWidth small (on small (.rchk v 8 sg)).req.xw = .ok 8) ∧
      (-128, 127) = rangeBounds 8 true ∧ (0, 255) = rangeBounds 8 false ∧
      (∀ v ∈ [(-128 : Int), 127], -128 ≤ readInt small (on small (.rchk v 8 true)).req ∧
        readInt small (on small (.rchk v 8 true)).req ≤ 127) ∧
      readInt small (on small (.rchk (-129) 8 true)).req < -128 ∧
      127 < readInt small (on small (.rchk 128 8 true)).req ∧
      readInt small (on small (.newi (-1) 8 false)).req < 0 ∧ 255 < readInt small (on small (.newi 256 8 false)).req :=
  ⟨fun _ _ => rfl, rfl, rfl, by decide, by decide, by decide, by decide, by decide⟩

/-- NEWS: a bad digit, digits of a wrong length (the empty string too), digits of the declared width. -/
theorem witness_ConstructFromString :
    readStringWidth small (on small (.news [0x78#8] 8 false)).req = .ok ([0x78#8], 8) ∧
      (∃ c ∈ [0x78#8], c ≠ 0x30#8 ∧ c ≠ 0x31#8) ∧
      readStringWidth small (on small (.news [] 8 false)).req = .ok ([], 8) ∧ ([] : List Byte).length ≠ 8 ∧
      readStringWidth small (on small (.news [0x31#8] 1 true)).req = .ok ([0x31#8], 1) ∧
      (∀ c ∈ [0x31#8], c = 0x30#8 ∨ c = 0x31#8) ∧ [0x31#8].length = 1 :=
  ⟨rfl, by decide, rfl, by decide, rfl, by decide, rfl⟩

/-- A string one character longer than the port: with a bad last character, and of digits. -/
theorem witness_StringLongerThanPortIsAnError :
    small.wf = true ∧ readWidth small (on small (.news (List.replicate 10 0x30#8) 8 false)).req.xw = .ok 8 ∧
      small.smax < (on small (.news (List.replicate 10 0x30#8) 8 false)).req.sl ∧
      (∃ k < 10, (List.replicate 9 0x30#8 ++ [0x78#8]).getD k 0#8 ≠ 0x30#8 ∧
        (List.replicate 9 0x30#8 ++ [0x78#8]).getD k 0#8 ≠ 0x31#8) ∧
      ∀ k < 10, (List.replicate 10 0x30#8).getD k 0#8 = 0x30#8 ∨ (List.replicate 10 0x30#8).getD k 0#8 = 0x31#8 :=
  ⟨by decide, rfl, by decide, by decide, by decide⟩

/-- ReadOutString, ReadOutInteger, ReadOutBits and (d) of ConstructionRoundTrips. -/
theorem witness_ReadOut :
    readSeqX small (on small (.tostr (s 8 128))).req = .ok (s 8 128) ∧
      readSeqX small (on small (.bits (u 1 1))).req = .ok (u 1 1) := ⟨rfl, rfl⟩

/-- UnsignedAddition and UnsignedSubtraction: the sums 255 and 256, the differences 1 and 0. -/
theorem witness_UnsignedArithmetic :
    (∀ n m, readSeqPair small (on small (.add (u 8 n) (u 8 m))).req = .ok (u 8 n, u 8 m)) ∧
      uval (bin 8 254) + uval (bin 8 1) ≤ 2 ^ (bin 8 254).length - 1 ∧
      2 ^ (bin 8 255).length - 1 < uval (bin 8 255) + uval (bin 8 1) ∧
      uval (bin 8 4) < uval (bin 8 5) ∧ uval (bin 8 5) ≤ uval (bin 8 5) :=
  ⟨fun _ _ => rfl, by decide, by decide, by decide, by decide⟩

/-- SignedAddition and SignedSubtraction: 127, 128, -128 and -129 under both settings, and a width of 1. -/
theorem witness_SignedArithmetic :
    (∀ n m, readSeqPair small (on small (.add (s 8 n) (s 8 m))).req = .ok (s 8 n, s 8 m)) ∧
      (127 : Int) = decodeBits (bin 8 126) true + decodeBits (bin 8 1) true ∧
      (128 : Int) = decodeBits (bin 8 127) true + decodeBits (bin 8 1) true ∧
      (-128 : Int) = decodeBits (bin 8 129) true + decodeBits (bin 8 255) true ∧
      (-129 : Int) = decodeBits (bin 8 128) true + decodeBits (bin 8 255) true ∧
      (128 : Int) = decodeBits (bin 8 127) true - decodeBits (bin 8 255) true ∧
      (-129 : Int) = decodeBits (bin 8 128) true - decodeBits (bin 8 1) true ∧
      (1 : Int) = decodeBits [false] true - decodeBits [true] true ∧
      small.signedOvfCheck = true ∧ unchecked.signedOvfCheck = false ∧
      readSeqPair unchecked (on unchecked (.add (s 8 127) (s 8 1))).req = .ok (s 8 127, s 8 1) :=
  ⟨fun _ _ => rfl, by decide, by decide, by decide, by decide, by decide, by decide, by decide, rfl, rfl, rfl⟩

/-- Operands that differ in signedness only, and in width only. -/
theorem witness_IncompatibleOperands :
    readSeqPair small (on small (.gt (u 4 5) (s 4 5))).req = .ok (u 4 5, s 4 5) ∧ (u 4 5).signed ≠ (s 4 5).signed ∧
      readSeqPair small (on small (.lt (u 4 5) (u 8 5))).req = .ok (u 4 5, u 8 5) ∧
      (u 4 5).bits.length ≠ (u 8 5).bits.length ∧
      Instr.eq ∉ [Instr.add, .sub, .gt, .lt] ∧ ∃ t, exec .eq (on small (.eq (u 4 5) (s 4 5))) = .next t :=
  ⟨rfl, by decide, rfl, by decide, by decide, _, rfl⟩

/-- EqualityOfValues, GreaterThanIsNumericOrder, ComparisonTrichotomy: compatible pairs, equal and not, with their swaps. -/
theorem witness_Comparisons :
    (∀ n m, readSeqPair small (on small (.eq (u 8 n) (u 8 m))).req = .ok (u 8 n, u 8 m)) ∧
      (∀ n m, readSeqPair small (on small (.gt (s 1 n) (s 1 m))).req = .ok (s 1 n, s 1 m)) ∧
      (∀ n m, (s 1 n).signed = (s 1 m).signed ∧ (u 8 n).bits.length = (u 8 m).bits.length) ∧
      u 8 5 = u 8 5 ∧ u 8 0 ≠ u 8 255 ∧ s 1 0 ≠ s 1 1 :=
  ⟨fun _ _ => rfl, fun _ _ => rfl, fun _ _ => ⟨rfl, rfl⟩, rfl, by decide, by decide⟩

/-- A raw bit does present InvalidBitError, and a strict one does not. -/
theorem witness_ErrorsPerOperation :
    (∃ t, exec .xor (on small (.xor .other one)) = .next t ∧ t.out.st = some 1#4) ∧
      ∃ t, exec .xor (on small (.xor zero one)) = .next t ∧ t.out.st = some 0#4 := ⟨⟨_, rfl, rfl⟩, ⟨_, rfl, rfl⟩⟩

/-- StepKeepsInvariant and OperandsAndParametersStay: a state with the invariant that steps. -/
theorem witness_StepKeepsInvariant :
    State.reset.Inv ∧ ∃ t, step State.reset = .next t := by
  refine ⟨⟨by decide, ?_, ?_, ?_, ?_, ?_⟩, ⟨_, rfl⟩⟩ <;> intro _ h <;> cases h

/-- A RangeError presents the offending value and both bounds. -/
theorem witness_IntegerResultsFitTheirPorts :
    small.wmax + 1 ≤ small.nw ∧
      ∃ t, step (on small (.rchk (-129) 8 true)) = .next t ∧ t.out.rd = some (-129) ∧ t.out.rlo = some (-128) ∧
        t.out.rhi = some 127 := ⟨by decide, _, rfl, by decide, by decide, by decide⟩

theorem witness_PermutedRunGivesSameResults :
    [initialRequest, { initialRequest with op := 0x07#5 }].Perm [{ initialRequest with op := 0x07#5 }, initialRequest] :=
  .swap _ _ _

end Sys2Proof.Tests
end

/-! # What every step keeps: the promise about the outputs (10_state.md R22, R27; 60_exceptions.md R210) -/

namespace Sys2Proof.Machine

/-! ## What an evaluation presents -/

section Presents

variable {α : Type} {s : State} {P : Outputs → Prop}

/-- Whenever an evaluation from `s` ends in a next state, that state is `s` with outputs that satisfy `P`. -/
def Presents (s : State) (P : Outputs → Prop) (r : Host.Outcome State Fault Refusal) : Prop :=
  ∀ t, r = .next t → ∃ o, t = s.present o ∧ P o

/-- A response presents the result's outputs or those of its error, so `P` is asked of both. -/
theorem presents_respond {drive : α → Outputs} {x : Except Error α} (herr : ∀ e, x = .error e → P (errorOutputs e))
    (hok : ∀ v, x = .ok v → P (drive v)) : Presents s P (respond s drive x) := by
  intro t ht
  obtain ⟨o, hresp, hcases⟩ := respond_cases s drive x
  obtain rfl : s.present o = t := by simpa [hresp] using ht
  obtain ⟨v, hx, rfl⟩ | ⟨e, hx, rfl⟩ := hcases
  · exact ⟨_, rfl, hok v hx⟩
  · exact ⟨_, rfl, herr e hx⟩

/-- A request whose operand is not read presents nothing. -/
theorem presents_withOperand {x : Except Refusal α} {k : α → Host.Outcome State Fault Refusal}
    (hk : ∀ v, x = .ok v → Presents s P (k v)) : Presents s P (withOperand x k) := by
  intro t ht
  obtain ⟨v, hx, hnext⟩ := withOperand_next ht
  exact hk v hx t hnext

/-- A step that gives a next state has evaluated the operation that `OP` selects. -/
theorem step_next {t : State} (h : step s = .next t) : ∃ i, decode s.req.op = .ok i ∧ exec i s = .next t := by
  unfold step at h
  split at h
  case h_1 i hi => exact ⟨i, hi, h⟩
  case h_2 => cases h

end Presents

/-! ## Operands that were read -/

section Operands

variable {p : Params} {r : Request}

theorem readRawX_length {a : List RawBit} (h : readRawX p r = .ok a) : 1 ≤ a.length ∧ a.length ≤ p.wmax := by
  obtain ⟨hlow, hhigh, rfl⟩ := readRawX_ok_iff.mp h
  simpa using ⟨hlow, hhigh⟩

theorem readRawPair_length {a b : List RawBit} (h : readRawPair p r = .ok (a, b)) :
    a.length ≤ p.wmax ∧ a.length = b.length := by
  obtain ⟨hx, -, hlen⟩ := readRawPair_ok_iff.mp h
  exact ⟨(readRawX_length hx).2, hlen⟩

theorem readBitsX_length {v : Bits} (h : readBitsX p r = .ok v) : 1 ≤ v.length ∧ v.length ≤ p.wmax := by
  simpa using readRawX_length (readBitsX_ok_iff.mp h)

theorem readSeqX_length {x : SeqOperand} (h : readSeqX p r = .ok x) : 1 ≤ x.bits.length ∧ x.bits.length ≤ p.wmax :=
  readBitsX_length (readSeqX_ok_iff.mp h).2

end Operands

/-! ## Results of the bit logic on raw bits -/

theorem strictBit_ok_iff {a : RawBit} {b : Bit} : strictBit a = .ok b ↔ a = .bool b := by
  cases a <;> simp [strictBit]

theorem strictBits_ok_iff {v : List RawBit} {b : Bits} : strictBits v = .ok b ↔ v = rawBits b := by
  rw [← strictBits?_eq_some_iff]
  unfold strictBits
  cases strictBits? v <;> simp

/-- An `Except` computation in two parts succeeds exactly when both do. -/
theorem except_bind_ok_iff {ε α β : Type} {x : Except ε α} {f : α → Except ε β} {b : β} :
    (x >>= f) = .ok b ↔ ∃ a, x = .ok a ∧ f a = .ok b := by
  cases x with
  | ok a => exact ⟨fun h => ⟨a, rfl, h⟩, by rintro ⟨_, ⟨⟩, h⟩; exact h⟩
  | error e => exact ⟨nofun, by rintro ⟨_, ⟨⟩, _⟩⟩

theorem rippleAddRaw_ok_iff {a b : List RawBit} {c : RawBit} {r : Bits × Bit} :
    rippleAddRaw a b c = .ok r ↔
      ∃ x y z, a = rawBits x ∧ b = rawBits y ∧ c = .bool z ∧ r = rippleAdd x y z := by
  simp [rippleAddRaw, except_bind_ok_iff, strictBits_ok_iff, strictBit_ok_iff, pure, Except.pure, eq_comm (a := r)]

theorem twosComplementRaw_ok_iff {a : List RawBit} {r : Bits × Bit} :
    twosComplementRaw a = .ok r ↔ ∃ x, a = rawBits x ∧ r = twosComplement x := by
  simp [twosComplementRaw, except_bind_ok_iff, strictBits_ok_iff, pure, Except.pure, eq_comm (a := r)]

theorem rippleSubtractRaw_ok_iff {a b : List RawBit} {r : Bits × Bit} :
    rippleSubtractRaw a b = .ok r ↔ ∃ x y, a = rawBits x ∧ b = rawBits y ∧ r = rippleSubtract x y := by
  simp [rippleSubtractRaw, except_bind_ok_iff, strictBits_ok_iff, pure, Except.pure, eq_comm (a := r)]

@[simp] theorem rippleSubtract_length {a b : Bits} (h : a.length = b.length) :
    (rippleSubtract a b).1.length = a.length := by
  simp [rippleSubtract, h]

theorem rippleAddRaw_length {a b : List RawBit} {c : RawBit} {r : Bits × Bit} (hlen : a.length = b.length)
    (h : rippleAddRaw a b c = .ok r) : r.1.length = a.length := by
  obtain ⟨x, y, z, rfl, rfl, rfl, rfl⟩ := rippleAddRaw_ok_iff.mp h
  simpa using rippleAdd_length z (by simpa using hlen)

theorem twosComplementRaw_length {a : List RawBit} {r : Bits × Bit} (h : twosComplementRaw a = .ok r) :
    r.1.length = a.length := by
  obtain ⟨x, rfl, rfl⟩ := twosComplementRaw_ok_iff.mp h
  simp

theorem rippleSubtractRaw_length {a b : List RawBit} {r : Bits × Bit} (hlen : a.length = b.length)
    (h : rippleSubtractRaw a b = .ok r) : r.1.length = a.length := by
  obtain ⟨x, y, rfl, rfl, rfl⟩ := rippleSubtractRaw_ok_iff.mp h
  simpa using rippleSubtract_length (by simpa using hlen)

/-- A prepended carry lengthens the list by one bit at most (30_encoding.md R67). -/
theorem prependCarry_length_le (v : Bits) (c : Bit) : (prependCarry v c).length ≤ v.length + 1 := by
  cases c <;> simp [prependCarry]

/-! ## The codec inside its range -/

theorem inRange_unsigned_iff {v : Int} {w : Nat} : inRange v w false = true ↔ 0 ≤ v ∧ v < ((2 ^ w : Nat) : Int) := by
  rw [inRange_iff, rangeBounds_unsigned, Int.le_sub_one_iff]

theorem inRange_signed_iff {v : Int} {w : Nat} :
    inRange v w true = true ↔ -((2 ^ (w - 1) : Nat) : Int) ≤ v ∧ v < ((2 ^ (w - 1) : Nat) : Int) := by
  rw [inRange_iff, rangeBounds_signed, Int.le_sub_one_iff]

/-- A set sign bit is what makes a signed decimal negative (10_state.md R22). -/
theorem decodeBits_neg_iff {v : Bits} (h : 1 ≤ v.length) : decodeBits v true < 0 ↔ msb v = true := by
  have hlt := uval_lt v
  rw [decodeBits_eq h]
  by_cases hm : msb v = true
  · rw [if_pos ⟨rfl, hm⟩, iff_true_right hm]
    omega
  · rw [if_neg (by simp [hm]), iff_false_right hm]
    omega

/-- The negator turns the magnitude of a negative integer into the pattern of the integer: a magnitude above 0 sets no
carry (42_bit_logic.md R147). -/
theorem uval_twosComplement_decompose {m : Int} {w : Nat} (hw : 1 ≤ w) (h0 : 0 < m) (h : m < ((2 ^ w : Nat) : Int)) :
    (uval (twosComplement (decompose w m)).1 : Int) = ((2 ^ w : Nat) : Int) - m := by
  have hmag := uval_decompose h0.le h
  have hlaw := twosComplement_law (a := decompose w m) (by simpa using hw)
  rw [decompose_length] at hlaw
  cases hcarry : (twosComplement (decompose w m)).2 with
  | false =>
    rw [hcarry, Bool.toNat_false, Nat.mul_zero] at hlaw
    omega
  | true =>
    rw [hcarry, Bool.toNat_true, Nat.mul_one] at hlaw
    omega

/-- In range, ENC gives the pattern of `n` modulo `2^w` (41_codec.md R121). -/
theorem uval_encodeInt {n : Int} {w : Nat} {sg : Bit} (hw : 1 ≤ w) (h : inRange n w sg = true) :
    (uval (encodeInt n w sg) : Int) = if n < 0 then n + ((2 ^ w : Nat) : Int) else n := by
  cases sg with
  | false =>
    obtain ⟨hlo, hhi⟩ := inRange_unsigned_iff.mp h
    rw [if_neg (by omega)]
    exact uval_decompose hlo hhi
  | true =>
    obtain ⟨hlo, hhi⟩ := inRange_signed_iff.mp h
    have hpow : 2 ^ (w - 1) * 2 = 2 ^ w := Nat.two_pow_pred_mul_two hw
    by_cases hneg : n < 0
    · have henc : encodeInt n w true = (twosComplement (decompose w (n.natAbs : Int))).1 := by
        simp only [encodeInt, hneg, decide_true, Bool.and_self, if_true]
      rw [henc, if_pos hneg, uval_twosComplement_decompose hw (by omega) (by omega)]
      omega
    · have henc : encodeInt n w true = decompose w (n.natAbs : Int) := by
        simp only [encodeInt, hneg, decide_false, Bool.and_false, if_true, Bool.false_eq_true, if_false]
      rw [henc, if_neg hneg, uval_decompose (by omega) (by omega)]
      omega

/-- DEC undoes ENC on every integer in range (R125). -/
theorem decodeBits_encodeInt {n : Int} {w : Nat} {sg : Bit} (hw : 1 ≤ w) (h : inRange n w sg = true) :
    decodeBits (encodeInt n w sg) sg = n := by
  have hlen : 1 ≤ (encodeInt n w sg).length := hw.trans_eq (encodeInt_length n w sg).symm
  have hval := uval_encodeInt hw h
  have hmsb := msb_iff hlen
  rw [encodeInt_length] at hmsb
  rw [decodeBits_eq hlen, encodeInt_length]
  cases sg with
  | false =>
    obtain ⟨hlo, -⟩ := inRange_unsigned_iff.mp h
    rw [if_neg (by simp), hval, if_neg (by omega)]
  | true =>
    obtain ⟨hlo, hhi⟩ := inRange_signed_iff.mp h
    have hpow : 2 ^ (w - 1) * 2 = 2 ^ w := Nat.two_pow_pred_mul_two hw
    by_cases hneg : n < 0
    · rw [if_pos hneg] at hval
      rw [if_pos ⟨rfl, hmsb.mpr (by omega)⟩]
      omega
    · rw [if_neg hneg] at hval
      rw [if_neg fun ⟨_, hm⟩ => by have := hmsb.mp hm; omega, hval]

/-! ## Every constructed BitSequence is valid -/

/-- The invariants of R22, with a width that the ports can carry. -/
structure ValidSequence (p : Params) (x : BitSequence) : Prop where
  nonempty : 1 ≤ x.bits.length
  width_le : x.bits.length ≤ p.wmax
  bounds_eq : (x.min, x.max) = rangeBounds x.bits.length x.signed
  min_le : x.min ≤ x.decimal
  le_max : x.decimal ≤ x.max
  decimal_eq : x.decimal = decodeBits x.bits x.signed

theorem makeSequence_valid {p : Params} {v : Bits} {sg : Bit} {d : Int} (hlow : 1 ≤ v.length)
    (hhigh : v.length ≤ p.wmax) (hd : d = decodeBits v sg) (hrange : inRange d v.length sg = true) :
    ValidSequence p (makeSequence v sg d) :=
  ⟨hlow, hhigh, rfl, (inRange_iff.mp hrange).1, (inRange_iff.mp hrange).2, hd⟩

theorem newFromStrictBits_ok_iff {v : Bits} {sg : Bit} {x : BitSequence} :
    newFromStrictBits v sg = .ok x ↔
      inRange (decodeBits v sg) v.length sg = true ∧ x = makeSequence v sg (decodeBits v sg) := by
  simp only [newFromStrictBits, except_bind_ok_iff, ← rangeCheck_ok_iff, Unique.exists_iff, PUnit.default_eq_unit, pure,
    Except.pure, Except.ok.injEq, eq_comm (a := x)]

theorem newFromInt_ok_iff {n : Int} {w : Nat} {sg : Bit} {x : BitSequence} :
    newFromInt n w sg = .ok x ↔ inRange n w sg = true ∧ x = makeSequence (encodeInt n w sg) sg n := by
  simp only [newFromInt, except_bind_ok_iff, ← rangeCheck_ok_iff, Unique.exists_iff, PUnit.default_eq_unit, pure,
    Except.pure, Except.ok.injEq, eq_comm (a := x)]

theorem newFromBits_ok_iff {b : List RawBit} {sg : Bit} {x : BitSequence} :
    newFromBits b sg = .ok x ↔ ∃ v, b = rawBits v ∧ newFromStrictBits v sg = .ok x := by
  simp [newFromBits, except_bind_ok_iff, strictBits_ok_iff]

theorem newFromString_ok_iff {t : List Byte} {w : Nat} {sg : Bit} {x : BitSequence} :
    newFromString t w sg = .ok x ↔
      t.all isDigit = true ∧ t.length = w ∧ newFromStrictBits (t.map (· == charOne)) sg = .ok x := by
  by_cases hdigits : t.all isDigit = true
  · by_cases hlen : t.length = w <;>
      simp only [newFromString, hdigits, hlen, if_true, if_false, true_and, false_and, reduceCtorEq]
  · simp only [newFromString, hdigits, Bool.false_eq_true, if_false, false_and, reduceCtorEq]

theorem compatible_deriveSequence {x y : SeqOperand} :
    compatible (deriveSequence x) (deriveSequence y) = true ↔ x.signed = y.signed ∧ x.bits.length = y.bits.length := by
  simp [compatible, deriveSequence, makeSequence]

/-- ADD's result is built from the sum bits of compatible operands, whichever overflow test it passed (R160). -/
theorem addSequences_ok {ovfCheck : Bool} {x y z : BitSequence} (h : addSequences ovfCheck x y = .ok z) :
    compatible x y = true ∧ newFromStrictBits (rippleAdd x.bits y.bits).1 x.signed = .ok z := by
  unfold addSequences at h
  split at h
  case isFalse => cases h
  case isTrue hc =>
    refine ⟨hc, ?_⟩
    dsimp only at h
    split_ifs at h <;> exact h

/-- SUB's result is built from the difference bits of compatible operands (R164). -/
theorem subSequences_ok {x y z : BitSequence} (h : subSequences x y = .ok z) :
    compatible x y = true ∧ newFromStrictBits (rippleSubtract x.bits y.bits).1 x.signed = .ok z := by
  unfold subSequences at h
  split_ifs at h with hc
  exact ⟨hc, h⟩

section ValidSequence

variable {p : Params} {x : BitSequence}

theorem newFromStrictBits_valid {v : Bits} {sg : Bit} (hlow : 1 ≤ v.length) (hhigh : v.length ≤ p.wmax)
    (h : newFromStrictBits v sg = .ok x) : ValidSequence p x := by
  obtain ⟨hrange, rfl⟩ := newFromStrictBits_ok_iff.mp h
  exact makeSequence_valid hlow hhigh rfl hrange

/-- NEWI caches `n` itself as the decimal (R102); it is the decimal of the bits because ENC is exact in range. -/
theorem newFromInt_valid {n : Int} {w : Nat} {sg : Bit} (hlow : 1 ≤ w) (hhigh : w ≤ p.wmax)
    (h : newFromInt n w sg = .ok x) : ValidSequence p x := by
  obtain ⟨hrange, rfl⟩ := newFromInt_ok_iff.mp h
  exact makeSequence_valid (by simpa using hlow) (by simpa using hhigh) (decodeBits_encodeInt hlow hrange).symm
    (by simpa using hrange)

theorem newFromBits_valid {b : List RawBit} {sg : Bit} (hlow : 1 ≤ b.length) (hhigh : b.length ≤ p.wmax)
    (h : newFromBits b sg = .ok x) : ValidSequence p x := by
  obtain ⟨v, rfl, hx⟩ := newFromBits_ok_iff.mp h
  exact newFromStrictBits_valid (by simpa using hlow) (by simpa using hhigh) hx

theorem newFromString_valid {t : List Byte} {w : Nat} {sg : Bit} (hlow : 1 ≤ w) (hhigh : w ≤ p.wmax)
    (h : newFromString t w sg = .ok x) : ValidSequence p x := by
  obtain ⟨-, rfl, hx⟩ := newFromString_ok_iff.mp h
  exact newFromStrictBits_valid (by simpa using hlow) (by simpa using hhigh) hx

theorem addSequences_valid {ovfCheck : Bool} {a b : SeqOperand} (hlow : 1 ≤ a.bits.length)
    (hhigh : a.bits.length ≤ p.wmax) (h : addSequences ovfCheck (deriveSequence a) (deriveSequence b) = .ok x) :
    ValidSequence p x := by
  obtain ⟨hcomp, hx⟩ := addSequences_ok h
  have hlen : (rippleAdd a.bits b.bits).1.length = a.bits.length :=
    rippleAdd_length false (compatible_deriveSequence.mp hcomp).2
  exact newFromStrictBits_valid (hlow.trans_eq hlen.symm) (hlen.trans_le hhigh) hx

theorem subSequences_valid {a b : SeqOperand} (hlow : 1 ≤ a.bits.length) (hhigh : a.bits.length ≤ p.wmax)
    (h : subSequences (deriveSequence a) (deriveSequence b) = .ok x) : ValidSequence p x := by
  obtain ⟨hcomp, hx⟩ := subSequences_ok h
  have hlen : (rippleSubtract a.bits b.bits).1.length = a.bits.length :=
    rippleSubtract_length (compatible_deriveSequence.mp hcomp).2
  exact newFromStrictBits_valid (hlow.trans_eq hlen.symm) (hlen.trans_le hhigh) hx

end ValidSequence

/-! ## Each kind of outputs keeps the promise -/

section Sound

variable {p : Params} {o : Outputs}

theorem bitsFit_of_rb_none (h : o.rb = none) : o.bitsFit p := by simp [Outputs.bitsFit, h]

theorem charsFit_of_rc_none (h : o.rc = none) : o.charsFit p := by simp [Outputs.charsFit, h]

theorem sequenceValid_of_rs_none (h : o.rs = none) : o.sequenceValid p := by simp [Outputs.sequenceValid, h]

theorem bitsFit_of_toWires {v : Bits} (hrl : o.rl = some v.length) (hrb : o.rb = some (toWires v))
    (hfit : v.length ≤ p.wmax + 1) : o.bitsFit p := by
  rintro u hu
  obtain rfl : toWires v = u := by simpa [hrb] using hu
  simpa [toWires, hrl] using hfit

/-- With status 0 there is no error to keep bare, so the three promises about the data remain. -/
theorem sound_of_statusOk (hst : o.st = some statusOk) (hbits : o.bitsFit p) (hchars : o.charsFit p)
    (hseq : o.sequenceValid p) : o.sound p := by
  refine ⟨?_, ?_, hbits, hchars, hseq⟩
  · simp [Outputs.statusKnown, hst, statusOk]
  · simp [Outputs.errorBare, hst, statusOk]

/-- A result of single bits and integers alone (XOR, HADD, FADD, DEC, BOUNDS, RCHK, TOINT, EQ, GT, LT). -/
theorem sound_of_scalar (hst : o.st = some statusOk) (hrb : o.rb = none) (hrc : o.rc = none) (hrs : o.rs = none) :
    o.sound p :=
  sound_of_statusOk hst (bitsFit_of_rb_none hrb) (charsFit_of_rc_none hrc) (sequenceValid_of_rs_none hrs)

/-- A bit-list result that is no BitSequence (RADD, INV, TCN, RSUB, ENC, BITS). -/
theorem sound_of_bits {v : Bits} (hst : o.st = some statusOk) (hrl : o.rl = some v.length)
    (hrb : o.rb = some (toWires v)) (hrc : o.rc = none) (hrs : o.rs = none) (hfit : v.length ≤ p.wmax + 1) : o.sound p :=
  sound_of_statusOk hst (bitsFit_of_toWires hrl hrb hfit) (charsFit_of_rc_none hrc) (sequenceValid_of_rs_none hrs)

theorem bitsOutputs_sound {v : Bits} (h : v.length ≤ p.wmax) : (bitsOutputs v).sound p :=
  sound_of_bits rfl rfl rfl rfl rfl (h.trans (Nat.le_succ _))

theorem droppedCarryOutputs_sound {r : Bits × Bit} (h : r.1.length ≤ p.wmax) : (droppedCarryOutputs r).sound p :=
  sound_of_bits rfl rfl rfl rfl rfl (h.trans (Nat.le_succ _))

theorem carryListOutputs_sound {r : Bits × Bit} (h : r.1.length ≤ p.wmax) : (carryListOutputs r).sound p :=
  sound_of_bits rfl rfl rfl rfl rfl ((prependCarry_length_le r.1 r.2).trans (Nat.succ_le_succ h))

/-- The constraints of 00_scope.md R7. -/
theorem params_wf_iff : p.wf = true ↔ 1 ≤ p.wmax ∧ 2 ≤ p.nw ∧ p.wmax ≤ p.smax := by simp [Params.wf, and_assoc]

/-- A bit-string is made of the characters 0x30 and 0x31, and fits the string port because `WMAX <= SMAX`. -/
theorem stringOutputs_sound {x : SeqOperand} (hwf : p.wf = true) (h : x.bits.length ≤ p.wmax) :
    (stringOutputs (toBitString (deriveSequence x))).sound p := by
  obtain ⟨-, -, hsmax⟩ := params_wf_iff.mp hwf
  have hlen : (toBitString (deriveSequence x)).length = x.bits.length := List.length_map ..
  refine sound_of_statusOk rfl (bitsFit_of_rb_none rfl) ?_ (sequenceValid_of_rs_none rfl)
  rintro _ ⟨⟩
  refine ⟨rfl, hlen.trans_le h, by simpa [stringFits, hlen] using h.trans hsmax, fun c hc => ?_⟩
  obtain ⟨b, -, rfl⟩ := List.mem_map.mp hc
  cases b with
  | false => exact .inl rfl
  | true => exact .inr rfl

theorem bitSequenceOutputs_sound {x : BitSequence} (h : ValidSequence p x) : (bitSequenceOutputs x).sound p := by
  refine sound_of_statusOk rfl (bitsFit_of_toWires rfl rfl (h.width_le.trans (Nat.le_succ _)))
    (charsFit_of_rc_none rfl) ?_
  rintro _ ⟨⟩
  refine ⟨x.bits, x.decimal, x.min, x.max, rfl, rfl, rfl, rfl, rfl, h.nonempty, h.width_le, h.bounds_eq, h.min_le,
    h.le_max, h.decimal_eq, fun hsg => ?_⟩
  rw [h.decimal_eq, hsg, decodeBits_neg_iff h.nonempty]

/-- The outputs before the first request (10_state.md R32). -/
theorem undriven_sound : Outputs.undriven.sound p :=
  ⟨nofun, nofun, bitsFit_of_rb_none rfl, charsFit_of_rc_none rfl, sequenceValid_of_rs_none rfl⟩

/-- Codes 8 to 15 belong to no error (30_encoding.md R63). -/
theorem errorCode_le (e : Error) : (errorCode e).toNat ≤ 7 := by cases e <;> simp [errorCode]

theorem errorOutputs_bare (e : Error) : (errorOutputs e).errorBare := by
  intro c hc _
  obtain rfl : errorCode e = c := by simpa using hc
  cases e <;> simp [errorOutputs, errorCode, Outputs.undriven]

theorem errorOutputs_sound (e : Error) : (errorOutputs e).sound p := by
  refine ⟨?_, errorOutputs_bare e, bitsFit_of_rb_none ?_, charsFit_of_rc_none ?_, sequenceValid_of_rs_none ?_⟩
  · intro c hc
    obtain rfl : errorCode e = c := by simpa using hc
    exact errorCode_le e
  all_goals cases e <;> rfl

end Sound

/-! ## Every operation keeps the promise -/

section Exec

variable {α : Type} {s : State}

/-- A response is sound when its result's outputs are; its errors always are. -/
theorem presents_sound_respond {drive : α → Outputs} {x : Except Error α}
    (hok : ∀ v, x = .ok v → (drive v).sound s.params) : Presents s (·.sound s.params) (respond s drive x) :=
  presents_respond (fun e _ => errorOutputs_sound e) hok

/-- A response that presents single bits and integers alone is sound whatever its result is. -/
theorem presents_sound_scalar {drive : α → Outputs} {x : Except Error α} (hst : ∀ v, (drive v).st = some statusOk)
    (hrb : ∀ v, (drive v).rb = none) (hrc : ∀ v, (drive v).rc = none) (hrs : ∀ v, (drive v).rs = none) :
    Presents s (·.sound s.params) (respond s drive x) :=
  presents_sound_respond fun v _ => sound_of_scalar (hst v) (hrb v) (hrc v) (hrs v)

theorem exec_presents_sound (i : Instr) (hwf : s.params.wf = true) : Presents s (·.sound s.params) (exec i s) := by
  cases i with
  | xor | hadd | fadd => exact presents_sound_scalar (fun _ => rfl) (fun _ => rfl) (fun _ => rfl) fun _ => rfl
  | dec | bounds | rchk | toint | eq | gt | lt =>
    exact presents_withOperand fun _ _ =>
      presents_sound_scalar (fun _ => rfl) (fun _ => rfl) (fun _ => rfl) fun _ => rfl
  | radd =>
    refine presents_withOperand fun ab hab => presents_sound_respond fun r hr => ?_
    obtain ⟨hfit, hlen⟩ := readRawPair_length hab
    exact carryListOutputs_sound ((rippleAddRaw_length hlen hr).trans_le hfit)
  | rsub =>
    refine presents_withOperand fun ab hab => presents_sound_respond fun r hr => ?_
    obtain ⟨hfit, hlen⟩ := readRawPair_length hab
    exact carryListOutputs_sound ((rippleSubtractRaw_length hlen hr).trans_le hfit)
  | tcn =>
    refine presents_withOperand fun a ha => presents_sound_respond fun r hr => ?_
    exact droppedCarryOutputs_sound ((twosComplementRaw_length hr).trans_le (readRawX_length ha).2)
  | inv =>
    refine presents_withOperand fun a ha => presents_sound_respond ?_
    rintro _ ⟨⟩
    exact bitsOutputs_sound ((invert_length a).trans_le (readBitsX_length ha).2)
  | enc =>
    refine presents_withOperand fun w hw => presents_sound_respond ?_
    rintro _ ⟨⟩
    obtain ⟨-, hfit, rfl⟩ := readWidth_ok_iff.mp hw
    exact bitsOutputs_sound ((encodeInt_length ..).trans_le hfit)
  | bits =>
    refine presents_withOperand fun x hx => presents_sound_respond ?_
    rintro _ ⟨⟩
    exact bitsOutputs_sound (readSeqX_length hx).2
  | tostr =>
    refine presents_withOperand fun x hx => presents_sound_respond ?_
    rintro _ ⟨⟩
    exact stringOutputs_sound hwf (readSeqX_length hx).2
  | newi =>
    refine presents_withOperand fun w hw => presents_sound_respond fun x hx => ?_
    obtain ⟨hlow, hhigh, rfl⟩ := readWidth_ok_iff.mp hw
    exact bitSequenceOutputs_sound (newFromInt_valid hlow hhigh hx)
  | news =>
    refine presents_withOperand fun tw htw => presents_sound_respond fun x hx => ?_
    obtain ⟨hlow, hhigh, hw⟩ := readWidth_ok_iff.mp (readStringWidth_ok_iff.mp htw).1
    exact bitSequenceOutputs_sound (newFromString_valid (hlow.trans_eq hw.symm) (hw.trans_le hhigh) hx)
  | newb =>
    refine presents_withOperand fun b hb => presents_sound_respond fun x hx => ?_
    obtain ⟨hlow, hhigh⟩ := readRawX_length hb
    exact bitSequenceOutputs_sound (newFromBits_valid hlow hhigh hx)
  | add =>
    refine presents_withOperand fun xy hxy => presents_sound_respond fun z hz => ?_
    obtain ⟨hlow, hhigh⟩ := readSeqX_length (readSeqPair_ok_iff.mp hxy).1
    exact bitSequenceOutputs_sound (addSequences_valid hlow hhigh hz)
  | sub =>
    refine presents_withOperand fun xy hxy => presents_sound_respond fun z hz => ?_
    obtain ⟨hlow, hhigh⟩ := readSeqX_length (readSeqPair_ok_iff.mp hxy).1
    exact bitSequenceOutputs_sound (subSequences_valid hlow hhigh hz)

end Exec

/-! ## The invariant -/

/-- Settles O47: the selected operation leaves the parameters alone and presents sound outputs; the invariant before the
step is used for `WMAX <= SMAX` only, since a result depends on no earlier output. -/
theorem stepKeepsInvariant : Obligations.StepKeepsInvariant := by
  intro s t hinv hstep
  obtain ⟨hwf, -⟩ := hinv
  obtain ⟨i, -, hexec⟩ := step_next hstep
  obtain ⟨o, rfl, hsound⟩ := exec_presents_sound i hwf t hexec
  exact ⟨hwf, hsound⟩

/-- Settles O48: the reference sizes meet R7, and outputs without a value break no promise. -/
theorem resetHasInvariant : Obligations.ResetHasInvariant := ⟨by decide, undriven_sound⟩

/-- Settles O49: the reset state is a literal whose fields are read off. -/
theorem resetState : Obligations.ResetState :=
  ⟨rfl, rfl, rfl, resetHasInvariant.1, rfl, rfl, rfl⟩

end Sys2Proof.Machine

/-! # The state: a request is its line, and the line alone decides the reply (10_state.md R20, R25, R26, R29, R31) -/

namespace Sys2Proof.Machine

/-! ## An operation reads its line and presents the line's outputs -/

section LineOutputs

variable {α : Type}

/-- What a result drives: its own outputs, or those of its error (00_scope.md R12). -/
def resultOutputs (drive : α → Outputs) : Except Error α → Outputs
  | .ok v => drive v
  | .error e => errorOutputs e

theorem respond_eq_next (s : State) (drive : α → Outputs) (x : Except Error α) :
    respond s drive x = .next (s.present (resultOutputs drive x)) := by
  cases x <;> rfl

/-- The outputs of a line under given parameters: a function of the operands and SIGNED_OVF_CHECK, with no state in it.
That it is what `exec` presents is `exec_eq`. -/
def lineOutputs (p : Params) : Line → Outputs
  | .xor a b => resultOutputs bitOutputs (xorRaw a b)
  | .hadd a b => resultOutputs sumCarryOutputs (halfAdderRaw a b)
  | .fadd c a b => resultOutputs sumCarryOutputs (fullAdderRaw c a b)
  | .radd a b c => resultOutputs carryListOutputs (rippleAddRaw a b c)
  | .inv a => bitsOutputs (invert a)
  | .tcn a => resultOutputs droppedCarryOutputs (twosComplementRaw a)
  | .rsub a b => resultOutputs carryListOutputs (rippleSubtractRaw a b)
  | .enc n w sg => bitsOutputs (encodeInt n w sg)
  | .dec v sg => intOutputs (decodeBits v sg)
  | .bounds w sg => boundsOutputs (rangeBounds w sg)
  | .rchk v w sg => resultOutputs (fun _ => okOutputs) (rangeCheck v w sg)
  | .newi n w sg => resultOutputs bitSequenceOutputs (newFromInt n w sg)
  | .news t w sg => resultOutputs bitSequenceOutputs (newFromString t w sg)
  | .newb b sg => resultOutputs bitSequenceOutputs (newFromBits b sg)
  | .tostr x => stringOutputs (toBitString (deriveSequence x))
  | .toint x => intOutputs (deriveSequence x).decimal
  | .bits x => bitsOutputs (deriveSequence x).bits
  | .add x y =>
    resultOutputs bitSequenceOutputs (addSequences p.signedOvfCheck (deriveSequence x) (deriveSequence y))
  | .sub x y => resultOutputs bitSequenceOutputs (subSequences (deriveSequence x) (deriveSequence y))
  | .eq x y => bitOutputs (equalSequences (deriveSequence x) (deriveSequence y))
  | .gt x y => resultOutputs bitOutputs (greaterThan (deriveSequence x) (deriveSequence y))
  | .lt x y => resultOutputs bitOutputs (lessThan (deriveSequence x) (deriveSequence y))

/-- Present the outputs of a line that was read, or refuse the request for what stopped the reading. -/
def answer (s : State) (line : Except Refusal Line) : Host.Outcome State Fault Refusal :=
  withOperand line fun l => .next (s.present (lineOutputs s.params l))

@[simp] theorem answer_ok (s : State) (l : Line) : answer s (.ok l) = .next (s.present (lineOutputs s.params l)) := rfl

@[simp] theorem answer_error (s : State) (e : Refusal) : answer s (.error e) = .refused e := rfl

theorem answer_next_iff {s t : State} {line : Except Refusal Line} :
    answer s line = .next t ↔ ∃ l, line = .ok l ∧ t = s.present (lineOutputs s.params l) := by
  cases line <;> simp [eq_comm]

theorem answer_refused_iff {s : State} {line : Except Refusal Line} {e : Refusal} :
    answer s line = .refused e ↔ line = .error e := by
  cases line <;> simp

/-- An operation that reads an operand and goes on to the outputs of the line made of it answers that line. -/
theorem withOperand_eq_answer {s : State} {operand : Except Refusal α} {k : α → Host.Outcome State Fault Refusal}
    {line : α → Line} (hk : ∀ v, k v = .next (s.present (lineOutputs s.params (line v)))) :
    withOperand operand k = answer s (operand.map line) := by
  cases operand with
  | ok v => exact hk v
  | error e => rfl

/-- Every operation reads its line and presents that line's outputs; nothing else of the state enters (R20, R26). -/
theorem exec_eq (i : Instr) (s : State) : exec i s = answer s (readLine s.params s.req i) := by
  cases i with
  | xor | hadd | fadd => exact respond_eq_next ..
  | radd | inv | tcn | rsub | enc | dec | bounds | rchk | newi | news | newb | tostr | toint | bits | add | sub | eq | gt
  | lt => exact withOperand_eq_answer fun _ => respond_eq_next ..

theorem exec_next_iff {i : Instr} {s t : State} :
    exec i s = .next t ↔ ∃ l, readLine s.params s.req i = .ok l ∧ t = s.present (lineOutputs s.params l) := by
  rw [exec_eq, answer_next_iff]

theorem exec_refused_iff {i : Instr} {s : State} {e : Refusal} :
    exec i s = .refused e ↔ readLine s.params s.req i = .error e := by
  rw [exec_eq, answer_refused_iff]

end LineOutputs

/-! ## A step reads the request and answers it -/

/-- The line of a whole request: that of the operation on OP, or why the request has no meaning (R60, R68, R69). That it
is what `step` answers is `step_eq`. -/
def readRequest (p : Params) (r : Request) : Except Refusal Line :=
  match decode r.op with
  | .ok i => readLine p r i
  | .error (.reservedCode code) => .error (.reservedCode code)

theorem step_of_decode {s : State} {i : Instr} (h : decode s.req.op = .ok i) : step s = exec i s := by
  simp [step, h]

theorem step_eq (s : State) : step s = answer s (readRequest s.params s.req) := by
  cases h : decode s.req.op with
  | ok i => simp [step_of_decode h, readRequest, h, exec_eq]
  | error e => cases e; simp [step, readRequest, h]

/-- Settles O3. -/
theorem stepRunsSelectedOperation : Obligations.StepRunsSelectedOperation := fun _ _ => step_of_decode

/-- Settles O6: both halves are what `answer` does with the line of the operation. -/
theorem evaluatedExactlyWhenReadable : Obligations.EvaluatedExactlyWhenReadable := by
  intro i s
  refine ⟨?_, fun _ => exec_refused_iff⟩
  simp only [exec_next_iff]
  constructor
  · rintro ⟨_, l, hread, -⟩
    exact ⟨l, hread⟩
  · rintro ⟨l, hread⟩
    exact ⟨_, l, hread, rfl⟩

/-- Settles O9: the outputs are those of the line, and the line is the same. -/
theorem onlyReadPortsMatter : Obligations.OnlyReadPortsMatter := by
  intro i s t hparams hline s' hexec
  obtain ⟨l, hread, rfl⟩ := exec_next_iff.mp hexec
  rw [exec_next_iff]
  exact ⟨l, hline ▸ hread, by rw [present_out, hparams]⟩

/-- Settles O46: the next state is the state before with other outputs. -/
theorem operandsAndParametersStay : Obligations.OperandsAndParametersStay := by
  have hexec (i : Instr) (s t : State) (h : exec i s = .next t) : t.params = s.params ∧ t.req = s.req := by
    obtain ⟨l, -, rfl⟩ := exec_next_iff.mp h
    exact ⟨rfl, rfl⟩
  refine ⟨hexec, fun s t hstep => ?_⟩
  obtain ⟨i, -, h⟩ := step_next hstep
  exact hexec i s t h

/-! ## What the readers do not read (R26, R69) -/

section Unread

variable {p : Params} {r : Request} {xb yb : List RawBit} {sc : List Byte}

/-- The request with other levels on its buses and characters; widths, lengths and single wires stay. -/
def relevel (r : Request) (xb yb : List RawBit) (sc : List Byte) : Request :=
  { r with xb := xb, yb := yb, sc := sc }

@[simp] theorem relevel_c1 : (relevel r xb yb sc).c1 = r.c1 := rfl
@[simp] theorem relevel_xw : (relevel r xb yb sc).xw = r.xw := rfl
@[simp] theorem relevel_xs : (relevel r xb yb sc).xs = r.xs := rfl
@[simp] theorem relevel_ys : (relevel r xb yb sc).ys = r.ys := rfl

theorem readRawX_eq (p : Params) (r : Request) : readRawX p r = (readWidth p r.xw).map (takeWires · r.xb) := by
  unfold readRawX
  cases readWidth p r.xw <;> rfl

theorem readRawY_eq (p : Params) (r : Request) : readRawY p r = (readWidth p r.yw).map (takeWires · r.yb) := by
  unfold readRawY
  cases readWidth p r.yw <;> rfl

/-- A width that is carried is the port's own level, so no wire at or above it is read. -/
theorem readWidth_map_takeWires_congr {w : Nat} {bus bus' : List RawBit}
    (h : ∀ k < w, bus.getD k (.bool false) = bus'.getD k (.bool false)) :
    (readWidth p w).map (takeWires · bus) = (readWidth p w).map (takeWires · bus') := by
  cases hw : readWidth p w with
  | ok w' =>
    obtain ⟨-, -, rfl⟩ := readWidth_ok_iff.mp hw
    exact congrArg Except.ok (takeWires_congr h)
  | error e => rfl

theorem readRawX_relevel (hx : ∀ k < r.xw, xb.getD k (.bool false) = r.xb.getD k (.bool false)) :
    readRawX p (relevel r xb yb sc) = readRawX p r := by
  rw [readRawX_eq, readRawX_eq]
  exact readWidth_map_takeWires_congr hx

theorem readRawY_relevel (hy : ∀ k < r.yw, yb.getD k (.bool false) = r.yb.getD k (.bool false)) :
    readRawY p (relevel r xb yb sc) = readRawY p r := by
  rw [readRawY_eq, readRawY_eq]
  exact readWidth_map_takeWires_congr hy

theorem readString_relevel (hs : ∀ k < r.sl, sc.getD k 0#8 = r.sc.getD k 0#8) :
    readString (relevel r xb yb sc) = readString r :=
  List.map_congr_left fun k hk => hs k (List.mem_range.mp hk)

/-- Every reader is made of the two raw readers, the string reader and the ports that `relevel` leaves alone. -/
theorem readLine_relevel (hx : ∀ k < r.xw, xb.getD k (.bool false) = r.xb.getD k (.bool false))
    (hy : ∀ k < r.yw, yb.getD k (.bool false) = r.yb.getD k (.bool false))
    (hs : ∀ k < r.sl, sc.getD k 0#8 = r.sc.getD k 0#8) (i : Instr) :
    readLine p (relevel r xb yb sc) i = readLine p r i := by
  have hrawX : readRawX p (relevel r xb yb sc) = readRawX p r := readRawX_relevel hx
  have hbitsX : readBitsX p (relevel r xb yb sc) = readBitsX p r := by simp only [readBitsX, hrawX]
  have hseqX : readSeqX p (relevel r xb yb sc) = readSeqX p r := by simp only [readSeqX, hbitsX, relevel_xs]
  have hrawY : readRawY p (relevel r xb yb sc) = readRawY p r := readRawY_relevel hy
  have hseqY : readSeqY p (relevel r xb yb sc) = readSeqY p r := by simp only [readSeqY, readBitsY, hrawY, relevel_ys]
  cases i with
  | xor | hadd | fadd | enc | bounds | rchk | newi => rfl
  | radd | rsub => simp only [readLine, readRawPair, hrawX, hrawY, relevel_c1]
  | tcn | newb => simp only [readLine, hrawX, relevel_xs]
  | inv | dec => simp only [readLine, hbitsX, relevel_xs]
  | news => simp only [readLine, readStringWidth, readString_relevel hs, relevel_xw, relevel_xs]
  | tostr | toint | bits => simp only [readLine, hseqX]
  | add | sub | eq | gt | lt => simp only [readLine, readSeqPair, hseqX, hseqY]

/-- Settles O10: the line read is the same, so the answer is. -/
theorem wiresAboveWidthAreNotRead : Obligations.WiresAboveWidthAreNotRead := by
  intro s xb yb sc hx hy hs i
  have hline : readLine s.params (relevel s.req xb yb sc) i = readLine s.params s.req i := readLine_relevel hx hy hs i
  constructor
  · intro t hexec
    exact onlyReadPortsMatter i s (s.drive (relevel s.req xb yb sc)) rfl hline.symm t hexec
  · intro e hexec
    exact exec_refused_iff.mpr (hline.trans (exec_refused_iff.mp hexec))

end Unread

/-! ## What no strict operand can carry (R23, log 8) -/

section Strict

variable {p : Params} {r : Request} {v : List RawBit} {e : Refusal}

theorem demandStrict_of_other_mem (h : .other ∈ v) : demandStrict v = .error .notABit := by
  simp [demandStrict, strictBits?_eq_none_iff.mpr h]

theorem readBitsX_of_other_mem (hread : readRawX p r = .ok v) (h : .other ∈ v) : readBitsX p r = .error .notABit := by
  simp [readBitsX, hread, demandStrict_of_other_mem h]

theorem readSeqY_of_other_mem (hread : readRawY p r = .ok v) (h : .other ∈ v) : readSeqY p r = .error .notABit := by
  simp [readSeqY, readBitsY, hread, demandStrict_of_other_mem h]

theorem readSeqX_of_readBitsX_error (h : readBitsX p r = .error e) : readSeqX p r = .error e := by
  simp [readSeqX, h]

theorem readSeqPair_of_readSeqX_error (h : readSeqX p r = .error e) : readSeqPair p r = .error e := by
  simp [readSeqPair, h]

theorem readSeqPair_of_readSeqY_error {x : SeqOperand} (hx : readSeqX p r = .ok x) (h : readSeqY p r = .error e) :
    readSeqPair p r = .error e := by
  simp [readSeqPair, hx, h]

/-- The operators of two BitSequences refuse what their pair of operands is refused for. -/
theorem exec_refused_of_readSeqPair_error {s : State} (h : readSeqPair s.params s.req = .error e) {i : Instr}
    (hi : i ∈ [Instr.add, .sub, .eq, .gt, .lt]) : exec i s = .refused e := by
  rw [exec_refused_iff]
  cases i with
  | add | sub | eq | gt | lt => simp [readLine, h, Except.map]
  | _ => simp at hi

/-- Settles O8: the strict readers fail on a non-Boolean element, and X is read before Y. -/
theorem uncarriableOperandIsRefused : Obligations.UncarriableOperandIsRefused := by
  intro s
  constructor
  · intro a hread hother i hi
    have hbits := readBitsX_of_other_mem hread hother
    have hseq := readSeqX_of_readBitsX_error hbits
    cases i with
    | inv | dec => simp [exec_refused_iff, readLine, hbits, Except.map]
    | tostr | toint | bits => simp [exec_refused_iff, readLine, hseq, Except.map]
    | add | sub | eq | gt | lt =>
      exact exec_refused_of_readSeqPair_error (readSeqPair_of_readSeqX_error hseq) (by decide)
    | _ => simp at hi
  · intro x b hx hread hother i hi
    exact exec_refused_of_readSeqPair_error (readSeqPair_of_readSeqY_error hx (readSeqY_of_other_mem hread hother)) hi

end Strict

/-! ## A run (R20, R29, R211) -/

section Run

variable {s : State} {r : Request}

theorem issue_of_readRequest_ok {l : Line} (h : readRequest s.params r = .ok l) :
    s.issue r = (.outputs (lineOutputs s.params l), (s.drive r).present (lineOutputs s.params l)) := by
  simp [State.issue, step_eq, h]

theorem issue_of_readRequest_error {e : Refusal} (h : readRequest s.params r = .error e) :
    s.issue r = (.refused e, s.drive r) := by
  simp [State.issue, step_eq, h]

@[simp] theorem issue_params (s : State) (r : Request) : (s.issue r).2.params = s.params := by
  cases h : readRequest s.params r with
  | ok l => simp [issue_of_readRequest_ok h]
  | error e => simp [issue_of_readRequest_error h]

/-- Of the state before, a reply depends on the parameters alone (R20, R211). -/
theorem issue_reply_congr {t : State} (h : s.params = t.params) (r : Request) : (s.issue r).1 = (t.issue r).1 := by
  cases hread : readRequest s.params r with
  | ok l => rw [issue_of_readRequest_ok hread, issue_of_readRequest_ok (h ▸ hread), h]
  | error e => rw [issue_of_readRequest_error hread, issue_of_readRequest_error (h ▸ hread)]

theorem issue_reply (s : State) (r : Request) : (s.issue r).1 = replyAlone s.params r :=
  issue_reply_congr (s := s) (t := { params := s.params, req := initialRequest, out := Outputs.undriven }) rfl r

/-- Settles O52, by induction on the requests over every start state: each reply is that of the request alone, and the
next request meets the same parameters. -/
theorem runIsRequestByRequest : Obligations.RunIsRequestByRequest := by
  intro s rs
  induction rs generalizing s with
  | nil => rfl
  | cons r rs ih => rw [hostRun, ih, issue_reply, issue_params, List.map_cons]

end Run

end Sys2Proof.Machine

/-! # Operands in the block's value types: a line that is read is well formed, and a run has no order (20_memory.md R44, R46) -/

namespace Sys2Proof.Machine

/-! ## What each reader lets through (30_encoding.md R65, R69) -/

section ReadLine

variable {p : Params} {r : Request} {i : Instr} {l : Line}

theorem widthFits_iff {w : Nat} : widthFits p w = true ↔ 1 ≤ w ∧ w ≤ p.wmax := by simp [widthFits]

theorem readWidth_fits {w w' : Nat} (h : readWidth p w = .ok w') : widthFits p w' = true := by
  obtain ⟨hlow, hhigh, rfl⟩ := readWidth_ok_iff.mp h
  exact widthFits_iff.mpr ⟨hlow, hhigh⟩

/-- A declared width beside the integer port; the port carries nothing else than what fits it. -/
theorem readWidth_readInt_fits {w w' : Nat} (h : readWidth p w = .ok w') :
    (widthFits p w' && intFits p.nw (readInt p r)) = true :=
  Bool.and_eq_true_iff.mpr ⟨readWidth_fits h, readInt_fits p r⟩

theorem readStringWidth_fits {tw : List Byte × Nat} (h : readStringWidth p r = .ok tw) : widthFits p tw.2 = true :=
  readWidth_fits (readStringWidth_ok_iff.mp h).1

theorem readRawX_fits {a : List RawBit} (h : readRawX p r = .ok a) : widthFits p a.length = true :=
  widthFits_iff.mpr (readRawX_length h)

theorem readRawY_fits {a : List RawBit} (h : readRawY p r = .ok a) : widthFits p a.length = true := by
  obtain ⟨hlow, hhigh, rfl⟩ := readRawY_ok_iff.mp h
  simpa using widthFits_iff.mpr ⟨hlow, hhigh⟩

theorem readRawPair_fits {ab : List RawBit × List RawBit} (h : readRawPair p r = .ok ab) :
    (widthFits p ab.1.length && widthFits p ab.2.length && ab.1.length == ab.2.length) = true := by
  obtain ⟨hx, -, hlen⟩ := readRawPair_ok_iff.mp h
  simp only [← hlen, readRawX_fits hx, beq_self_eq_true, Bool.and_self]

theorem readBitsX_fits {v : Bits} (h : readBitsX p r = .ok v) : widthFits p v.length = true :=
  widthFits_iff.mpr (readBitsX_length h)

theorem readSeqX_fits {x : SeqOperand} (h : readSeqX p r = .ok x) : widthFits p x.bits.length = true :=
  widthFits_iff.mpr (readSeqX_length h)

theorem readSeqY_fits {y : SeqOperand} (h : readSeqY p r = .ok y) : widthFits p y.bits.length = true := by
  obtain ⟨-, hbits⟩ := readSeqY_ok_iff.mp h
  simpa using readRawY_fits (readBitsY_ok_iff.mp hbits)

theorem readSeqPair_fits {xy : SeqOperand × SeqOperand} (h : readSeqPair p r = .ok xy) :
    (widthFits p xy.1.bits.length && widthFits p xy.2.bits.length) = true := by
  obtain ⟨hx, hy⟩ := readSeqPair_ok_iff.mp h
  exact Bool.and_eq_true_iff.mpr ⟨readSeqX_fits hx, readSeqY_fits hy⟩

/-- A line made of one operand is of the operation, and well formed when whatever the reader lets through makes it so. -/
theorem map_line_wf {α : Type} {operand : Except Refusal α} {line : α → Line} (hinstr : ∀ v, (line v).instr = i)
    (hwf : ∀ v, operand = .ok v → (line v).wf p = true) (h : operand.map line = .ok l) :
    l.instr = i ∧ l.wf p = true := by
  cases operand with
  | ok v =>
    obtain rfl : line v = l := Except.ok.inj h
    exact ⟨hinstr v, hwf v rfl⟩
  | error e => cases h

end ReadLine

/-- Settles O5: the operations fall into the kinds of operands they read, and each reader checks what its line needs. -/
theorem readLineIsWellFormed : Obligations.ReadLineIsWellFormed := by
  intro p r i l h
  cases i with
  | xor | hadd | fadd =>
    obtain rfl := Except.ok.inj h
    exact ⟨rfl, rfl⟩
  | radd | rsub => exact map_line_wf (fun _ => rfl) (fun _ => readRawPair_fits) h
  | tcn | newb => exact map_line_wf (fun _ => rfl) (fun _ => readRawX_fits) h
  | inv | dec => exact map_line_wf (fun _ => rfl) (fun _ => readBitsX_fits) h
  | bounds => exact map_line_wf (fun _ => rfl) (fun _ => readWidth_fits) h
  | enc | rchk | newi => exact map_line_wf (fun _ => rfl) (fun _ => readWidth_readInt_fits) h
  | news => exact map_line_wf (fun _ => rfl) (fun _ => readStringWidth_fits) h
  | tostr | toint | bits => exact map_line_wf (fun _ => rfl) (fun _ => readSeqX_fits) h
  | add | sub | eq | gt | lt => exact map_line_wf (fun _ => rfl) (fun _ => readSeqPair_fits) h

/-! ## A run has no order (R46) -/

/-- Settles O53: a reply is that of its request alone, so permuting the requests permutes the replies. -/
theorem permutedRunGivesSameResults : Obligations.PermutedRunGivesSameResults := by
  intro s rs rs' hperm
  rw [runIsRequestByRequest, runIsRequestByRequest]
  exact hperm.map _

end Sys2Proof.Machine

/-! # The encoding: codes, placed lines, refused widths, integers on their ports (30_encoding.md) -/

namespace Sys2Proof.Machine

/-! ## Codes (R61, R68) -/

/-- The code of an operation selects it: the per-operation law, for all of them. -/
@[simp] theorem decode_encode (i : Instr) : decode (encode i) = .ok i :=
  i.rec (motive := Laws.CodeRoundTrip.Statement)
    Laws.CodeRoundTrip.xor Laws.CodeRoundTrip.hadd Laws.CodeRoundTrip.fadd Laws.CodeRoundTrip.radd
    Laws.CodeRoundTrip.inv Laws.CodeRoundTrip.tcn Laws.CodeRoundTrip.rsub Laws.CodeRoundTrip.enc
    Laws.CodeRoundTrip.dec Laws.CodeRoundTrip.bounds Laws.CodeRoundTrip.rchk Laws.CodeRoundTrip.newi
    Laws.CodeRoundTrip.news Laws.CodeRoundTrip.newb Laws.CodeRoundTrip.tostr Laws.CodeRoundTrip.toint
    Laws.CodeRoundTrip.bits Laws.CodeRoundTrip.add Laws.CodeRoundTrip.sub Laws.CodeRoundTrip.eq Laws.CodeRoundTrip.gt
    Laws.CodeRoundTrip.lt

/-- The five wires of OP carry the whole code of a table word of eight bits (log 13). -/
@[simp] theorem codeOfTableWord_toNat (c : OpCode) : codeOfTableWord 8 c.toNat = c := by
  have hlt : c.toNat < 2 ^ 8 := c.isLt.trans (by decide)
  rw [codeOfTableWord, Nat.mod_eq_of_lt hlt, BitVec.ofNat_toNat, BitVec.setWidth_eq]

/-- Settles O1: the code that each clause names is the operation's own. -/
theorem assignedCodesSelectOperations : Obligations.AssignedCodesSelectOperations :=
  ⟨decode_encode .xor, decode_encode .hadd, decode_encode .fadd, decode_encode .radd, decode_encode .inv,
    decode_encode .tcn, decode_encode .rsub, decode_encode .enc, decode_encode .dec, decode_encode .bounds,
    decode_encode .rchk, decode_encode .newi, decode_encode .news, decode_encode .newb, decode_encode .tostr,
    decode_encode .toint, decode_encode .bits, decode_encode .add, decode_encode .sub, decode_encode .eq,
    decode_encode .gt, decode_encode .lt⟩

/-- The reserved codes of R68. -/
def reservedCodes : List OpCode :=
  [0x07#5, 0x0F#5, 0x13#5, 0x16#5, 0x17#5, 0x1B#5, 0x1C#5, 0x1D#5, 0x1E#5, 0x1F#5]

theorem decode_of_mem_reservedCodes : ∀ c ∈ reservedCodes, decode c = .error (.reservedCode c) := by decide

/-- The ten reserved codes and the 22 codes of the table are all the codes there are. -/
theorem mem_reservedCodes_or_encode : ∀ c : OpCode, c ∈ reservedCodes ∨ ∃ row ∈ opTable, encode row.instr = c := by
  decide

/-- Settles O2: the reserved codes select no row, and any other code is that of an operation. -/
theorem reservedCodesAreRefused : Obligations.ReservedCodesAreRefused := by
  refine ⟨fun s hop => ?_, fun c hc => ?_⟩
  · simp [step, decode_of_mem_reservedCodes s.req.op hop]
  · obtain ⟨row, -, rfl⟩ := (mem_reservedCodes_or_encode c).resolve_left hc
    exact ⟨row.instr, decode_encode row.instr⟩

/-- Settles O44: the seven errors, one by one. -/
theorem raisedErrorOutputs : Obligations.RaisedErrorOutputs :=
  fun _ => ⟨rfl, rfl, rfl, fun _ _ _ => rfl, rfl, rfl, rfl⟩

/-- The input levels at reset are a line of every operation, whatever code stands on OP: all bits are strict and both
widths are 1 (log 3). -/
theorem readLine_initialRequest (code : OpCode) (i : Instr) :
    ∃ l, readLine Params.reference { initialRequest with op := code } i = .ok l := by
  cases i <;> exact ⟨_, rfl⟩

/-- Settles O50: the word selects the operation, and the operation can read its line. -/
theorem everyOperationRunsFromReset : Obligations.EveryOperationRunsFromReset := by
  intro i
  refine ⟨by simp [decodeTableWord], ?_⟩
  obtain ⟨l, hread⟩ := readLine_initialRequest (codeOfTableWord 8 (encode i).toNat) i
  rw [step_of_decode (i := i) (by simp)]
  exact ⟨_, exec_next_iff.mpr ⟨l, hread, rfl⟩⟩

/-! ## A placed line reads back (R62, R64, R65, R66, R70) -/

section Placed

variable {p : Params} {r : Request}

theorem readWidth_of_fits {w : Nat} (hfit : widthFits p w = true) : readWidth p w = .ok w := by
  obtain ⟨hlow, hhigh⟩ := widthFits_iff.mp hfit
  exact readWidth_ok_iff.mpr ⟨hlow, hhigh, rfl⟩

theorem readRawX_of_placed {a : List RawBit} (hfit : widthFits p a.length = true) (hw : r.xw = a.length)
    (hb : r.xb = toWires a) : readRawX p r = .ok a := by
  rw [readRawX_eq, hw, hb, readWidth_of_fits hfit, Except.map, takeWires_toWires]

theorem readRawY_of_placed {b : List RawBit} (hfit : widthFits p b.length = true) (hw : r.yw = b.length)
    (hb : r.yb = toWires b) : readRawY p r = .ok b := by
  rw [readRawY_eq, hw, hb, readWidth_of_fits hfit, Except.map, takeWires_toWires]

theorem readBitsX_of_placed {v : Bits} (hfit : widthFits p v.length = true) (hw : r.xw = (rawBits v).length)
    (hb : r.xb = toWires (rawBits v)) : readBitsX p r = .ok v :=
  readBitsX_ok_iff.mpr (readRawX_of_placed (by simpa using hfit) hw hb)

theorem readSeqX_of_placed {x : SeqOperand} (hfit : widthFits p x.bits.length = true) (hs : x.signed = r.xs)
    (hw : r.xw = (rawBits x.bits).length) (hb : r.xb = toWires (rawBits x.bits)) : readSeqX p r = .ok x :=
  readSeqX_ok_iff.mpr ⟨hs, readBitsX_of_placed hfit hw hb⟩

theorem readSeqY_of_placed {y : SeqOperand} (hfit : widthFits p y.bits.length = true) (hs : y.signed = r.ys)
    (hw : r.yw = (rawBits y.bits).length) (hb : r.yb = toWires (rawBits y.bits)) : readSeqY p r = .ok y :=
  readSeqY_ok_iff.mpr ⟨hs, readBitsY_ok_iff.mpr (readRawY_of_placed (by simpa using hfit) hw hb)⟩

/-- The string port shows as many characters as the string has (D5, log 10). -/
theorem readString_of_placed {t : List Byte} (hl : r.sl = t.length) (hc : r.sc = t) : readString r = t := by
  apply List.ext_getElem
  · simp [hl]
  · intro k _ hk
    simp [readString, hc, hk]

theorem readStringWidth_of_placed {t : List Byte} {w : Nat} (hfit : widthFits p w = true) (hw : r.xw = w)
    (hl : r.sl = t.length) (hc : r.sc = t) : readStringWidth p r = .ok (t, w) :=
  readStringWidth_ok_iff.mpr ⟨by rw [hw, readWidth_of_fits hfit], readString_of_placed hl hc⟩

/-- An operation that finds its operand makes the line of it. -/
theorem map_line_ok {α : Type} {operand : Except Refusal α} {line : α → Line} {v : α} (h : operand = .ok v) :
    operand.map line = .ok (line v) := by rw [h]; rfl

/-- A pair of raw bit-lists that stands on the ports beside any other levels. -/
theorem readRawPair_of_placed {a b : List RawBit}
    (h : (widthFits p a.length && widthFits p b.length && a.length == b.length) = true) (hxw : r.xw = a.length)
    (hxb : r.xb = toWires a) (hyw : r.yw = b.length) (hyb : r.yb = toWires b) : readRawPair p r = .ok (a, b) := by
  simp only [Bool.and_eq_true, beq_iff_eq] at h
  obtain ⟨⟨ha, hb⟩, hlen⟩ := h
  exact readRawPair_ok_iff.mpr ⟨readRawX_of_placed ha hxw hxb, readRawY_of_placed hb hyw hyb, hlen⟩

/-- The operators of two BitSequences all place their pair in the same way. -/
theorem readSeqPair_placePair {x y : SeqOperand} (op : OpCode)
    (h : (widthFits p x.bits.length && widthFits p y.bits.length) = true) :
    readSeqPair p { placePair x y r with op := op } = .ok (x, y) := by
  obtain ⟨hx, hy⟩ := Bool.and_eq_true_iff.mp h
  exact readSeqPair_ok_iff.mpr ⟨readSeqX_of_placed hx rfl rfl rfl, readSeqY_of_placed hy rfl rfl rfl⟩

/-- The placed operands read back, operation by operation. -/
theorem readLine_placeLine {l : Line} (hp : p.wf = true) (h : l.wf p = true) :
    readLine p (placeLine p r l) l.instr = .ok l := by
  have hnw : 0 < p.nw := by have := params_wf_iff.mp hp; omega
  cases l with
  | xor | hadd | fadd => rfl
  | radd a b c | rsub a b => exact map_line_ok (readRawPair_of_placed h rfl rfl rfl rfl)
  | inv a | dec v sg => exact map_line_ok (readBitsX_of_placed h rfl rfl)
  | tcn a | newb b sg => exact map_line_ok (readRawX_of_placed h rfl rfl)
  | bounds w sg => exact map_line_ok (readWidth_of_fits h)
  | enc n w sg | rchk n w sg | newi n w sg =>
    obtain ⟨hw, hn⟩ := Bool.and_eq_true_iff.mp h
    refine (map_line_ok (readWidth_of_fits hw)).trans ?_
    rw [readInt_intPattern hnw hn rfl]
    rfl
  | news t w sg => exact map_line_ok (readStringWidth_of_placed h rfl rfl rfl)
  | tostr x | toint x | bits x => exact map_line_ok (readSeqX_of_placed h rfl rfl rfl)
  | add x y | sub x y | eq x y | gt x y | lt x y => exact map_line_ok (readSeqPair_placePair _ h)

end Placed

/-- Settles O4: the code selects the operation, and the readers find the operands where they were placed. -/
theorem placedLineReadsBack : Obligations.PlacedLineReadsBack :=
  fun _ _ l hp h => ⟨decode_encode l.instr, readLine_placeLine hp h⟩

/-! ## An impossible width (R69, U3) -/

section ImpossibleWidth

variable {p : Params} {r : Request} {e : Refusal}

theorem readWidth_of_impossible {w : Nat} (h : w = 0 ∨ p.wmax < w) : readWidth p w = .error (.badWidth w) :=
  readWidth_error_iff.mpr ⟨h, rfl⟩

theorem readRawX_of_readWidth_error (h : readWidth p r.xw = .error e) : readRawX p r = .error e := by
  simp [readRawX, h]

theorem readRawY_of_readWidth_error (h : readWidth p r.yw = .error e) : readRawY p r = .error e := by
  simp [readRawY, h]

theorem readBitsX_of_readRawX_error (h : readRawX p r = .error e) : readBitsX p r = .error e := by
  simp [readBitsX, h]

theorem readSeqY_of_readRawY_error (h : readRawY p r = .error e) : readSeqY p r = .error e := by
  simp [readSeqY, readBitsY, h]

theorem readRawPair_of_readRawX_error (h : readRawX p r = .error e) : readRawPair p r = .error e := by
  simp [readRawPair, h]

theorem readRawPair_of_readRawY_error {a : List RawBit} (ha : readRawX p r = .ok a) (h : readRawY p r = .error e) :
    readRawPair p r = .error e := by
  simp [readRawPair, ha, h]

/-- The raw adder and subtractor refuse what their pair of operands is refused for. -/
theorem exec_refused_of_readRawPair_error {s : State} (h : readRawPair s.params s.req = .error e) {i : Instr}
    (hi : i ∈ [Instr.radd, .rsub]) : exec i s = .refused e := by
  rw [exec_refused_iff]
  cases i with
  | radd | rsub => simp [readLine, h, Except.map]
  | _ => simp at hi

end ImpossibleWidth

/-- Settles O7: every reader of X begins with the width XW, and a reader of a pair comes to YW once X is read. -/
theorem impossibleWidthIsRefused : Obligations.ImpossibleWidthIsRefused := by
  intro s
  refine ⟨fun himp i hi => ?_, fun himp => ⟨fun a ha i hi => ?_, fun x hx i hi => ?_⟩⟩
  · have hwidth := readWidth_of_impossible himp
    have hraw := readRawX_of_readWidth_error hwidth
    have hbits := readBitsX_of_readRawX_error hraw
    have hseq := readSeqX_of_readBitsX_error hbits
    cases i with
    | enc | bounds | rchk | newi => simp [exec_refused_iff, readLine, hwidth, Except.map]
    | news => simp [exec_refused_iff, readLine, readStringWidth, hwidth, Except.map]
    | tcn | newb => simp [exec_refused_iff, readLine, hraw, Except.map]
    | inv | dec => simp [exec_refused_iff, readLine, hbits, Except.map]
    | tostr | toint | bits => simp [exec_refused_iff, readLine, hseq, Except.map]
    | radd | rsub => exact exec_refused_of_readRawPair_error (readRawPair_of_readRawX_error hraw) (by decide)
    | add | sub | eq | gt | lt =>
      exact exec_refused_of_readSeqPair_error (readSeqPair_of_readSeqX_error hseq) (by decide)
    | xor | hadd | fadd => simp at hi
  · have hraw := readRawY_of_readWidth_error (readWidth_of_impossible himp)
    exact exec_refused_of_readRawPair_error (readRawPair_of_readRawY_error ha hraw) hi
  · have hraw := readRawY_of_readWidth_error (readWidth_of_impossible himp)
    exact exec_refused_of_readSeqPair_error (readSeqPair_of_readSeqY_error hx (readSeqY_of_readRawY_error hraw)) hi

/-! ## Integers that a request presents fit the integer ports when `NW >= WMAX + 1` (R65) -/

/-- No bit pattern is out of the range of its width (40_construction_and_range.md R108). -/
theorem inRange_decodeBits {v : Bits} (h : 1 ≤ v.length) (sg : Bit) : inRange (decodeBits v sg) v.length sg = true := by
  have hlt := uval_lt v
  have hmsb := msb_iff h
  have hpow : 2 ^ (v.length - 1) * 2 = 2 ^ v.length := Nat.two_pow_pred_mul_two h
  rw [decodeBits_eq h]
  cases sg with
  | false =>
    rw [inRange_unsigned_iff, if_neg (by simp)]
    omega
  | true =>
    rw [inRange_signed_iff]
    by_cases hm : msb v = true
    · rw [if_pos ⟨rfl, hm⟩]
      have := hmsb.mp hm
      omega
    · rw [if_neg (by simp [hm])]
      have := mt hmsb.mpr hm
      omega

theorem inRange_rangeBounds (w : Nat) (sg : Bit) :
    inRange (rangeBounds w sg).1 w sg = true ∧ inRange (rangeBounds w sg).2 w sg = true := by
  have hle : (rangeBounds w sg).1 ≤ (rangeBounds w sg).2 := by
    have hw := Nat.two_pow_pos w
    have hw' := Nat.two_pow_pos (w - 1)
    cases sg with
    | false => rw [rangeBounds_unsigned]; dsimp only; omega
    | true => rw [rangeBounds_signed]; dsimp only; omega
  exact ⟨inRange_iff.mpr ⟨le_rfl, hle⟩, inRange_iff.mpr ⟨hle, le_rfl⟩⟩

/-- A port one wire wider than the value carries it under either signedness. -/
theorem intFits_of_inRange {v : Int} {w nw : Nat} {sg : Bit} (hw : w + 1 ≤ nw) (h : inRange v w sg = true) :
    intFits nw v = true := by
  have hport : 2 ^ w ≤ 2 ^ (nw - 1) := Nat.pow_le_pow_right Nat.two_pos (by omega)
  have hhalf : 2 ^ (w - 1) ≤ 2 ^ w := Nat.pow_le_pow_right Nat.two_pos (by omega)
  rw [intFits_iff]
  cases sg with
  | false =>
    obtain ⟨hlo, hhi⟩ := inRange_unsigned_iff.mp h
    omega
  | true =>
    obtain ⟨hlo, hhi⟩ := inRange_signed_iff.mp h
    omega

theorem intWires_of_fits {nw : Nat} {v : Int} (h : intFits nw v = true) :
    intWires nw v = some (BitVec.ofInt nw v) := by
  rw [intWires, if_pos h]

/-! ### The errors of each result -/

section Raises

variable {α β : Type} {E : Error → Prop} {x : Except Error α}

/-- Every error that a computation can end in satisfies `E`. -/
def Raises (E : Error → Prop) (x : Except Error α) : Prop := ∀ e, x = .error e → E e

theorem raises_ok (v : α) : Raises E (.ok v) := nofun

theorem raises_error {e : Error} (h : E e) : Raises E (.error e : Except Error α) := by
  rintro _ ⟨⟩
  exact h

/-- The errors of a computation in two parts are those of its parts. -/
theorem raises_bind {f : α → Except Error β} (hx : Raises E x) (hf : ∀ a, x = .ok a → Raises E (f a)) :
    Raises E (x >>= f) := by
  cases x with
  | ok a => exact hf a rfl
  | error e => exact raises_error (hx e rfl)

/-- The boundary for bits raises InvalidBitError and nothing else (60_exceptions.md R201). -/
theorem strictBit_raises (h : E .invalidBit) (a : RawBit) : Raises E (strictBit a) := by
  cases a with
  | bool b => exact raises_ok b
  | other => exact raises_error h

theorem strictBits_raises (h : E .invalidBit) (v : List RawBit) : Raises E (strictBits v) := by
  unfold strictBits
  split
  · exact raises_ok _
  · exact raises_error h

theorem xorRaw_raises (h : E .invalidBit) (a b : RawBit) : Raises E (xorRaw a b) :=
  raises_bind (strictBit_raises h a) fun _ _ => raises_bind (strictBit_raises h b) fun _ _ => raises_ok _

theorem halfAdderRaw_raises (h : E .invalidBit) (a b : RawBit) : Raises E (halfAdderRaw a b) :=
  raises_bind (strictBit_raises h a) fun _ _ => raises_bind (strictBit_raises h b) fun _ _ => raises_ok _

theorem fullAdderRaw_raises (h : E .invalidBit) (c a b : RawBit) : Raises E (fullAdderRaw c a b) :=
  raises_bind (strictBit_raises h a) fun _ _ => raises_bind (strictBit_raises h b) fun _ _ =>
    raises_bind (strictBit_raises h c) fun _ _ => raises_ok _

theorem rippleAddRaw_raises (h : E .invalidBit) (a b : List RawBit) (c : RawBit) : Raises E (rippleAddRaw a b c) :=
  raises_bind (strictBits_raises h a) fun _ _ => raises_bind (strictBits_raises h b) fun _ _ =>
    raises_bind (strictBit_raises h c) fun _ _ => raises_ok _

theorem twosComplementRaw_raises (h : E .invalidBit) (a : List RawBit) : Raises E (twosComplementRaw a) :=
  raises_bind (strictBits_raises h a) fun _ _ => raises_ok _

theorem rippleSubtractRaw_raises (h : E .invalidBit) (a b : List RawBit) : Raises E (rippleSubtractRaw a b) :=
  raises_bind (strictBits_raises h a) fun _ _ => raises_bind (strictBits_raises h b) fun _ _ => raises_ok _

/-- The check on given bits cannot fail (R108). -/
theorem newFromStrictBits_eq {v : Bits} (h : 1 ≤ v.length) (sg : Bit) :
    newFromStrictBits v sg = .ok (makeSequence v sg (decodeBits v sg)) :=
  newFromStrictBits_ok_iff.mpr ⟨inRange_decodeBits h sg, rfl⟩

theorem newFromStrictBits_raises {v : Bits} (h : 1 ≤ v.length) (sg : Bit) : Raises E (newFromStrictBits v sg) := by
  rw [newFromStrictBits_eq h]
  exact raises_ok _

theorem rangeCheck_raises {v : Int} {w : Nat} {sg : Bit} (h : E (.range v (rangeBounds w sg).1 (rangeBounds w sg).2)) :
    Raises E (rangeCheck v w sg) := by
  intro e he
  obtain ⟨-, rfl⟩ := rangeCheck_error_iff.mp he
  exact h

theorem newFromInt_raises {n : Int} {w : Nat} {sg : Bit} (h : E (.range n (rangeBounds w sg).1 (rangeBounds w sg).2)) :
    Raises E (newFromInt n w sg) :=
  raises_bind (rangeCheck_raises h) fun _ _ => raises_ok _

theorem newFromBits_raises (h : E .invalidBit) {b : List RawBit} (hlen : 1 ≤ b.length) (sg : Bit) :
    Raises E (newFromBits b sg) := by
  refine raises_bind (strictBits_raises h b) fun v hv => ?_
  obtain rfl := strictBits_ok_iff.mp hv
  exact newFromStrictBits_raises (by simpa using hlen) sg

theorem newFromString_raises (hdigit : E .invalidDigit) (hlength : E .lengthMismatch) {t : List Byte} {w : Nat}
    (hw : 1 ≤ w) (sg : Bit) : Raises E (newFromString t w sg) := by
  unfold newFromString
  split_ifs with _ hlen
  · exact newFromStrictBits_raises (by simpa [hlen] using hw) sg
  · exact raises_error hlength
  · exact raises_error hdigit

theorem addSequences_raises (hcompat : E .incompatibleOperands) (hoverflow : E .overflow) {ovfCheck : Bool}
    {x y : SeqOperand} (hlen : 1 ≤ x.bits.length) :
    Raises E (addSequences ovfCheck (deriveSequence x) (deriveSequence y)) := by
  unfold addSequences
  split
  case isFalse => exact raises_error hcompat
  case isTrue hc =>
    have hsum : 1 ≤ (rippleAdd x.bits y.bits).1.length :=
      hlen.trans_eq (rippleAdd_length false (compatible_deriveSequence.mp hc).2).symm
    dsimp only
    split_ifs
    · exact raises_error hoverflow
    · exact newFromStrictBits_raises hsum _
    · exact raises_error hoverflow
    · exact newFromStrictBits_raises hsum _

theorem subSequences_raises (hcompat : E .incompatibleOperands) (hunderflow : E .underflow) {x y : SeqOperand}
    (hlen : 1 ≤ x.bits.length) : Raises E (subSequences (deriveSequence x) (deriveSequence y)) := by
  unfold subSequences
  split_ifs with hc
  · exact raises_error hunderflow
  · exact newFromStrictBits_raises
      (hlen.trans_eq (rippleSubtract_length (compatible_deriveSequence.mp hc).2).symm) _
  · exact raises_error hcompat

theorem greaterThan_raises (h : E .incompatibleOperands) (x y : BitSequence) : Raises E (greaterThan x y) := by
  unfold greaterThan
  split_ifs
  · exact raises_ok _
  · exact raises_ok _
  · exact raises_error h

theorem lessThan_raises (h : E .incompatibleOperands) (x y : BitSequence) : Raises E (lessThan x y) :=
  raises_bind (greaterThan_raises h x y) fun _ _ => raises_ok _

end Raises

/-! ### Every line's integers -/

section IntegersFit

variable {α : Type} {p : Params} {nw : Nat} {o : Outputs}

/-- Every value on RD, RLO and RHI has a pattern on its `nw`-bit port. -/
def Outputs.integersFit (nw : Nat) (o : Outputs) : Prop :=
  ∀ v, o.rd = some v ∨ o.rlo = some v ∨ o.rhi = some v → intFits nw v = true

theorem integersFit_of_none (hrd : o.rd = none) (hrlo : o.rlo = none) (hrhi : o.rhi = none) : o.integersFit nw := by
  simp [Outputs.integersFit, hrd, hrlo, hrhi]

theorem intOutputs_integersFit {d : Int} (h : intFits nw d = true) : (intOutputs d).integersFit nw := by
  rintro _ (⟨⟨⟩⟩ | ⟨⟨⟩⟩ | ⟨⟨⟩⟩)
  exact h

theorem boundsOutputs_integersFit {w : Nat} (hw : w + 1 ≤ nw) (sg : Bit) :
    (boundsOutputs (rangeBounds w sg)).integersFit nw := by
  obtain ⟨hlo, hhi⟩ := inRange_rangeBounds w sg
  rintro _ (⟨⟨⟩⟩ | ⟨⟨⟩⟩ | ⟨⟨⟩⟩)
  · exact intFits_of_inRange hw hlo
  · exact intFits_of_inRange hw hhi

/-- RangeError carries the offending value beside the range. -/
theorem rangeOutputs_integersFit {v : Int} {w : Nat} {sg : Bit} (hw : w + 1 ≤ nw) (hv : intFits nw v = true) :
    (errorOutputs (.range v (rangeBounds w sg).1 (rangeBounds w sg).2)).integersFit nw := by
  rintro u (⟨⟨⟩⟩ | hbound)
  · exact hv
  · exact boundsOutputs_integersFit hw sg u (.inr hbound)

theorem bitSequenceOutputs_integersFit {x : BitSequence} (hp : p.wmax + 1 ≤ nw) (h : ValidSequence p x) :
    (bitSequenceOutputs x).integersFit nw := by
  have hw : x.bits.length + 1 ≤ nw := (Nat.succ_le_succ h.width_le).trans hp
  have hdecimal : inRange x.decimal x.bits.length x.signed = true := by
    rw [inRange_iff, ← h.bounds_eq]
    exact ⟨h.min_le, h.le_max⟩
  rintro u (⟨⟨⟩⟩ | hbound)
  · exact intFits_of_inRange hw hdecimal
  · exact boundsOutputs_integersFit hw x.signed u (.inr (h.bounds_eq ▸ hbound))

/-- A result's integers fit when those of its value and those of its errors do. -/
theorem resultOutputs_integersFit {drive : α → Outputs} {x : Except Error α}
    (hok : ∀ v, x = .ok v → (drive v).integersFit nw)
    (herr : Raises (fun e => (errorOutputs e).integersFit nw) x) : (resultOutputs drive x).integersFit nw := by
  cases x with
  | ok v => exact hok v rfl
  | error e => exact herr e rfl

theorem bitSequenceResult_integersFit {x : Except Error BitSequence} (hp : p.wmax + 1 ≤ nw)
    (hvalid : ∀ v, x = .ok v → ValidSequence p v) (herr : Raises (fun e => (errorOutputs e).integersFit nw) x) :
    (resultOutputs bitSequenceOutputs x).integersFit nw :=
  resultOutputs_integersFit (fun v hv => bitSequenceOutputs_integersFit hp (hvalid v hv)) herr

/-- A well-formed line presents decimals in the range of its width, the bounds of that range, or beside a RangeError the
integer that the port N carried. -/
theorem lineOutputs_integersFit {l : Line} (hp : p.wmax + 1 ≤ p.nw) (h : l.wf p = true) :
    (lineOutputs p l).integersFit p.nw := by
  have bare {o : Outputs} : o.rd = none → o.rlo = none → o.rhi = none → o.integersFit p.nw := integersFit_of_none
  cases l with
  | xor a b => exact resultOutputs_integersFit (fun _ _ => bare rfl rfl rfl) (xorRaw_raises (bare rfl rfl rfl) a b)
  | hadd a b =>
    exact resultOutputs_integersFit (fun _ _ => bare rfl rfl rfl) (halfAdderRaw_raises (bare rfl rfl rfl) a b)
  | fadd c a b =>
    exact resultOutputs_integersFit (fun _ _ => bare rfl rfl rfl) (fullAdderRaw_raises (bare rfl rfl rfl) c a b)
  | radd a b c =>
    exact resultOutputs_integersFit (fun _ _ => bare rfl rfl rfl) (rippleAddRaw_raises (bare rfl rfl rfl) a b c)
  | tcn a =>
    exact resultOutputs_integersFit (fun _ _ => bare rfl rfl rfl) (twosComplementRaw_raises (bare rfl rfl rfl) a)
  | rsub a b =>
    exact resultOutputs_integersFit (fun _ _ => bare rfl rfl rfl) (rippleSubtractRaw_raises (bare rfl rfl rfl) a b)
  | inv | enc | tostr | bits | eq => exact bare rfl rfl rfl
  | gt x y =>
    exact resultOutputs_integersFit (fun _ _ => bare rfl rfl rfl) (greaterThan_raises (bare rfl rfl rfl) _ _)
  | lt x y =>
    exact resultOutputs_integersFit (fun _ _ => bare rfl rfl rfl) (lessThan_raises (bare rfl rfl rfl) _ _)
  | dec v sg =>
    obtain ⟨hlow, hhigh⟩ := widthFits_iff.mp h
    exact intOutputs_integersFit (intFits_of_inRange ((Nat.succ_le_succ hhigh).trans hp) (inRange_decodeBits hlow sg))
  | toint x =>
    obtain ⟨hlow, hhigh⟩ := widthFits_iff.mp h
    exact intOutputs_integersFit
      (intFits_of_inRange ((Nat.succ_le_succ hhigh).trans hp) (inRange_decodeBits hlow x.signed))
  | bounds w sg =>
    exact boundsOutputs_integersFit ((Nat.succ_le_succ (widthFits_iff.mp h).2).trans hp) sg
  | rchk v w sg =>
    obtain ⟨hw, hv⟩ := Bool.and_eq_true_iff.mp h
    have hport := (Nat.succ_le_succ (widthFits_iff.mp hw).2).trans hp
    exact resultOutputs_integersFit (fun _ _ => bare rfl rfl rfl)
      (rangeCheck_raises (rangeOutputs_integersFit hport hv))
  | newi n w sg =>
    obtain ⟨hw, hn⟩ := Bool.and_eq_true_iff.mp h
    obtain ⟨hlow, hhigh⟩ := widthFits_iff.mp hw
    have hport := (Nat.succ_le_succ hhigh).trans hp
    exact bitSequenceResult_integersFit hp (fun _ => newFromInt_valid hlow hhigh)
      (newFromInt_raises (rangeOutputs_integersFit hport hn))
  | news t w sg =>
    obtain ⟨hlow, hhigh⟩ := widthFits_iff.mp h
    exact bitSequenceResult_integersFit hp (fun _ => newFromString_valid hlow hhigh)
      (newFromString_raises (bare rfl rfl rfl) (bare rfl rfl rfl) hlow sg)
  | newb b sg =>
    obtain ⟨hlow, hhigh⟩ := widthFits_iff.mp h
    exact bitSequenceResult_integersFit hp (fun _ => newFromBits_valid hlow hhigh)
      (newFromBits_raises (bare rfl rfl rfl) hlow sg)
  | add x y =>
    obtain ⟨hlow, hhigh⟩ := widthFits_iff.mp (Bool.and_eq_true_iff.mp h).1
    exact bitSequenceResult_integersFit hp (fun _ => addSequences_valid hlow hhigh)
      (addSequences_raises (bare rfl rfl rfl) (bare rfl rfl rfl) hlow)
  | sub x y =>
    obtain ⟨hlow, hhigh⟩ := widthFits_iff.mp (Bool.and_eq_true_iff.mp h).1
    exact bitSequenceResult_integersFit hp (fun _ => subSequences_valid hlow hhigh)
      (subSequences_raises (bare rfl rfl rfl) (bare rfl rfl rfl) hlow)

end IntegersFit

/-- Settles O51: the line that the step read is well formed, so the integers it presents fit the ports. -/
theorem integerResultsFitTheirPorts : Obligations.IntegerResultsFitTheirPorts := by
  intro s t hp hstep v hv
  obtain ⟨i, -, hexec⟩ := step_next hstep
  obtain ⟨l, hread, rfl⟩ := exec_next_iff.mp hexec
  obtain ⟨-, hwf⟩ := readLineIsWellFormed s.params s.req i l hread
  have hfit : intFits s.params.nw v = true := lineOutputs_integersFit hp hwf v hv
  exact ⟨BitVec.ofInt s.params.nw v, intWires_of_fits hfit, toInt_ofInt_of_fits (by omega) hfit⟩

end Sys2Proof.Machine

/-! # Construction, the range validator and read-out (40_construction_and_range.md) -/

namespace Sys2Proof.Machine

/-! ## What each operation of the section answers once its operand is read -/

section Answers

variable {s : State}

/-- The next state of a request whose line is known; each operation below names its own line. -/
theorem exec_of_readLine {i : Instr} {l : Line} (h : readLine s.params s.req i = .ok l) :
    exec i s = .next (s.present (lineOutputs s.params l)) := by
  rw [exec_eq, h, answer_ok]

theorem exec_enc_of_readWidth {w : Nat} (h : readWidth s.params s.req.xw = .ok w) :
    exec .enc s = .next (s.present (bitsOutputs (encodeInt (readInt s.params s.req) w s.req.xs))) :=
  exec_of_readLine (l := .enc (readInt s.params s.req) w s.req.xs) (map_line_ok h)

theorem exec_dec_of_readBitsX {v : Bits} (h : readBitsX s.params s.req = .ok v) :
    exec .dec s = .next (s.present (intOutputs (decodeBits v s.req.xs))) :=
  exec_of_readLine (l := .dec v s.req.xs) (map_line_ok h)

theorem exec_bounds_of_readWidth {w : Nat} (h : readWidth s.params s.req.xw = .ok w) :
    exec .bounds s = .next (s.present (boundsOutputs (rangeBounds w s.req.xs))) :=
  exec_of_readLine (l := .bounds w s.req.xs) (map_line_ok h)

theorem exec_rchk_of_readWidth {w : Nat} (h : readWidth s.params s.req.xw = .ok w) :
    exec .rchk s =
      .next (s.present (resultOutputs (fun _ => okOutputs) (rangeCheck (readInt s.params s.req) w s.req.xs))) :=
  exec_of_readLine (l := .rchk (readInt s.params s.req) w s.req.xs) (map_line_ok h)

theorem exec_newi_of_readWidth {w : Nat} (h : readWidth s.params s.req.xw = .ok w) :
    exec .newi s =
      .next (s.present (resultOutputs bitSequenceOutputs (newFromInt (readInt s.params s.req) w s.req.xs))) :=
  exec_of_readLine (l := .newi (readInt s.params s.req) w s.req.xs) (map_line_ok h)

theorem exec_news_of_readStringWidth {t : List Byte} {w : Nat} (h : readStringWidth s.params s.req = .ok (t, w)) :
    exec .news s = .next (s.present (resultOutputs bitSequenceOutputs (newFromString t w s.req.xs))) :=
  exec_of_readLine (l := .news t w s.req.xs) (map_line_ok h)

theorem exec_newb_of_readRawX {b : List RawBit} (h : readRawX s.params s.req = .ok b) :
    exec .newb s = .next (s.present (resultOutputs bitSequenceOutputs (newFromBits b s.req.xs))) :=
  exec_of_readLine (l := .newb b s.req.xs) (map_line_ok h)

theorem exec_tostr_of_readSeqX {x : SeqOperand} (h : readSeqX s.params s.req = .ok x) :
    exec .tostr s = .next (s.present (stringOutputs (toBitString (deriveSequence x)))) :=
  exec_of_readLine (l := .tostr x) (map_line_ok h)

theorem exec_toint_of_readSeqX {x : SeqOperand} (h : readSeqX s.params s.req = .ok x) :
    exec .toint s = .next (s.present (intOutputs (decodeBits x.bits x.signed))) :=
  exec_of_readLine (l := .toint x) (map_line_ok h)

theorem exec_bits_of_readSeqX {x : SeqOperand} (h : readSeqX s.params s.req = .ok x) :
    exec .bits s = .next (s.present (bitsOutputs x.bits)) :=
  exec_of_readLine (l := .bits x) (map_line_ok h)

end Answers

/-! ## The range validator (R100, R101, R108) -/

section Range

variable {v : Int} {w : Nat} {sg : Bit}

/-- A width of at least 1 has `2^w` integers in its range (R100). -/
theorem rangeBounds_size (hw : 1 ≤ w) (sg : Bit) :
    (rangeBounds w sg).2 - (rangeBounds w sg).1 = ((2 ^ w : Nat) : Int) - 1 := by
  cases sg with
  | false => simp only [rangeBounds_unsigned, Int.sub_zero]
  | true =>
    have hpow : 2 ^ (w - 1) * 2 = 2 ^ w := Nat.two_pow_pred_mul_two hw
    simp only [rangeBounds_signed]
    omega

theorem inRange_eq_false_iff :
    inRange v w sg = false ↔ v < (rangeBounds w sg).1 ∨ (rangeBounds w sg).2 < v := by
  rw [← Bool.not_eq_true, inRange_iff]
  omega

/-- Settles O31: the bounds of the width enclose the two's-complement value. -/
theorem bitPatternsAreAlwaysInRange : Obligations.BitPatternsAreAlwaysInRange :=
  fun _ sg hlen => inRange_iff.mp (inRange_decodeBits hlen sg)

/-- Settles O26: the two rows of R100 and the size of the range. -/
theorem boundsOfWidth : Obligations.BoundsOfWidth := by
  refine ⟨decode_encode .bounds, fun s w hread => ⟨_, _, exec_bounds_of_readWidth hread, ?_, ?_, ?_⟩⟩
  · intro hsigned
    rw [hsigned, rangeBounds_signed]
    exact ⟨rfl, rfl⟩
  · intro hunsigned
    rw [hunsigned, rangeBounds_unsigned]
    exact ⟨rfl, rfl⟩
  · obtain ⟨hlow, -, rfl⟩ := readWidth_ok_iff.mp hread
    exact rangeBounds_size hlow s.req.xs

/-- Settles O27: the check passes exactly in range, and its error carries the integer and the bounds. -/
theorem rangeCheckTestsTheInteger : Obligations.RangeCheckTestsTheInteger := by
  refine ⟨decode_encode .rchk, fun s w lo hi hread hbounds => ?_⟩
  obtain ⟨rfl, rfl⟩ : lo = (rangeBounds w s.req.xs).1 ∧ hi = (rangeBounds w s.req.xs).2 := Prod.ext_iff.mp hbounds
  constructor
  · intro hin
    rw [exec_rchk_of_readWidth hread, rangeCheck_ok_iff.mpr (inRange_iff.mpr hin)]
    rfl
  · intro hout
    rw [exec_rchk_of_readWidth hread, rangeCheck_error_iff.mpr ⟨inRange_eq_false_iff.mpr hout, rfl⟩]
    rfl

end Range

/-! ## The three construction paths (R102, R103, R104) -/

section Construction

variable {n : Int} {w : Nat} {sg : Bit} {t : List Byte}

/-- A constructed BitSequence drives the six outputs of R64, all of them functions of its bits and signedness. -/
theorem bitSequenceOutputs_deriveSequence {x : SeqOperand} (hw : x.bits.length = w) :
    bitSequenceOutputs (deriveSequence x) =
      { Outputs.undriven with
          st := some 0#4, rl := some w, rs := some x.signed, rb := some x.bits.reverse,
          rd := some (decodeBits x.bits x.signed), rlo := some (rangeBounds w x.signed).1,
          rhi := some (rangeBounds w x.signed).2 } := by
  subst hw
  rfl

/-- NEWI caches `n`, which is the decimal that the bits of an integer in range have (R102, D24). -/
theorem newFromInt_of_inRange (hw : 1 ≤ w) (h : inRange n w sg = true) :
    newFromInt n w sg = .ok (deriveSequence { signed := sg, bits := encodeInt n w sg }) := by
  refine newFromInt_ok_iff.mpr ⟨h, ?_⟩
  rw [deriveSequence, decodeBits_encodeInt hw h]

theorem newFromInt_of_not_inRange (h : inRange n w sg = false) :
    newFromInt n w sg = .error (.range n (rangeBounds w sg).1 (rangeBounds w sg).2) := by
  rw [newFromInt, rangeCheck_error_iff.mpr ⟨h, rfl⟩]
  rfl

/-- NEWI presents the BitSequence of the bits of ENC, which decode to the integer exactly because it is in range. -/
theorem exec_newi_of_inRange {s : State} (hread : readWidth s.params s.req.xw = .ok w)
    (h : inRange (readInt s.params s.req) w s.req.xs = true) :
    ∃ v : Bits,
      exec .newi s = .next (s.present (bitSequenceOutputs (deriveSequence { signed := s.req.xs, bits := v }))) ∧
      v.length = w ∧ decodeBits v s.req.xs = readInt s.params s.req := by
  have hlow : 1 ≤ w := (widthFits_iff.mp (readWidth_fits hread)).1
  refine ⟨_, ?_, encodeInt_length .., decodeBits_encodeInt hlow h⟩
  rw [exec_newi_of_readWidth hread, newFromInt_of_inRange hlow h, resultOutputs]

/-- Settles O28: in range ENC loses nothing; out of range the check's error carries the integer and the bounds. -/
theorem constructFromInteger : Obligations.ConstructFromInteger := by
  refine ⟨decode_encode .newi, fun s w lo hi hread hbounds => ?_⟩
  obtain ⟨rfl, rfl⟩ : lo = (rangeBounds w s.req.xs).1 ∧ hi = (rangeBounds w s.req.xs).2 := Prod.ext_iff.mp hbounds
  constructor
  · intro hin
    obtain ⟨v, hnewi, hlen, hdecimal⟩ := exec_newi_of_inRange hread (inRange_iff.mpr hin)
    refine ⟨v, ?_, hlen, hdecimal⟩
    rw [hnewi, bitSequenceOutputs_deriveSequence hlen, hdecimal]
  · intro hout
    rw [exec_newi_of_readWidth hread, newFromInt_of_not_inRange (inRange_eq_false_iff.mpr hout)]
    rfl

/-- The digits are the two bytes of R66 (D21; log 15). -/
theorem isDigit_iff {c : Byte} : isDigit c = true ↔ c = 0x30#8 ∨ c = 0x31#8 := by
  simp [isDigit, charZero, charOne]

theorem all_isDigit_iff : t.all isDigit = true ↔ ∀ c ∈ t, c = 0x30#8 ∨ c = 0x31#8 := by
  simp only [List.all_eq_true, isDigit_iff]

/-- The bits that a string of digits spells, most significant first. -/
def digitBits (t : List Byte) : Bits := t.map (· == charOne)

@[simp] theorem digitBits_length (t : List Byte) : (digitBits t).length = t.length := List.length_map ..

theorem newFromString_of_badDigit (h : ∃ c ∈ t, c ≠ 0x30#8 ∧ c ≠ 0x31#8) :
    newFromString t w sg = .error .invalidDigit := by
  have hdigits : ¬ t.all isDigit = true := by
    obtain ⟨c, hc, hzero, hone⟩ := h
    exact fun hall => (all_isDigit_iff.mp hall c hc).elim hzero hone
  rw [newFromString, if_neg hdigits]

theorem newFromString_of_length_ne (hdigits : ∀ c ∈ t, c = 0x30#8 ∨ c = 0x31#8) (hlen : t.length ≠ w) :
    newFromString t w sg = .error .lengthMismatch := by
  rw [newFromString, if_pos (all_isDigit_iff.mpr hdigits), if_neg hlen]

theorem newFromString_of_digits (hdigits : ∀ c ∈ t, c = 0x30#8 ∨ c = 0x31#8) (hlen : t.length = w) (hw : 1 ≤ w) :
    newFromString t w sg = .ok (deriveSequence { signed := sg, bits := digitBits t }) :=
  newFromString_ok_iff.mpr
    ⟨all_isDigit_iff.mpr hdigits, hlen, newFromStrictBits_eq (hw.trans_eq (by simp [hlen])) sg⟩

/-- Settles O29: the three outcomes of R103, with the bits that the digits spell. -/
theorem constructFromString : Obligations.ConstructFromString := by
  refine ⟨decode_encode .news, fun s t w hread => ⟨fun hbad => ?_, fun hdigits hlen => ?_, fun hdigits hlen => ?_⟩⟩
  · rw [exec_news_of_readStringWidth hread, newFromString_of_badDigit hbad]
    rfl
  · rw [exec_news_of_readStringWidth hread, newFromString_of_length_ne hdigits hlen]
    rfl
  · have hlow : 1 ≤ w := (widthFits_iff.mp (readStringWidth_fits hread)).1
    have hbits : (digitBits t).length = w := (digitBits_length t).trans hlen
    refine ⟨digitBits t, ?_, hbits, fun k hk => ?_⟩
    · rw [exec_news_of_readStringWidth hread, newFromString_of_digits hdigits hlen hlow, resultOutputs,
        bitSequenceOutputs_deriveSequence hbits]
    · simp [digitBits, charOne, hk, beq_eq_decide]

/-- The characters of the string operand are those at its first `SL` positions (R66; log 11). -/
theorem mem_readString_iff {r : Request} {c : Byte} : c ∈ readString r ↔ ∃ k < r.sl, r.sc.getD k 0#8 = c := by
  simp only [readString, List.mem_map, List.mem_range]

/-- Settles O54: by R7 a legal width is at most SMAX, so the length of such a string is never the declared width. -/
theorem stringLongerThanPortIsAnError : Obligations.StringLongerThanPortIsAnError := by
  intro s w hwf hread hlong
  obtain ⟨-, -, hsmax⟩ := params_wf_iff.mp hwf
  obtain ⟨-, hwidth⟩ := widthFits_iff.mp (readWidth_fits hread)
  have hstring : readStringWidth s.params s.req = .ok (readString s.req, w) := readStringWidth_ok_iff.mpr ⟨hread, rfl⟩
  obtain ⟨hbadDigit, hmismatch, -⟩ := constructFromString.2 s (readString s.req) w hstring
  constructor
  · rintro ⟨k, hk, hbad⟩
    exact hbadDigit ⟨_, mem_readString_iff.mpr ⟨k, hk, rfl⟩, hbad⟩
  · intro hdigits
    refine hmismatch (fun c hc => ?_) (by rw [readString_length]; omega)
    obtain ⟨k, hk, rfl⟩ := mem_readString_iff.mp hc
    exact hdigits k hk

theorem strictBits_of_other_mem {b : List RawBit} (h : .other ∈ b) : strictBits b = .error .invalidBit := by
  rw [strictBits, strictBits?_eq_none_iff.mpr h]

theorem newFromBits_of_other_mem {b : List RawBit} (h : .other ∈ b) : newFromBits b sg = .error .invalidBit := by
  rw [newFromBits, strictBits_of_other_mem h]
  rfl

/-- Strict bits become the BitSequence that is derived from them (R104, R108). -/
theorem newFromBits_rawBits {v : Bits} (h : 1 ≤ v.length) :
    newFromBits (rawBits v) sg = .ok (deriveSequence { signed := sg, bits := v }) :=
  newFromBits_ok_iff.mpr ⟨v, rfl, newFromStrictBits_eq h sg⟩

theorem exec_newb_of_rawBits {s : State} {v : Bits} (hread : readRawX s.params s.req = .ok (rawBits v)) :
    exec .newb s = .next (s.present (bitSequenceOutputs (deriveSequence { signed := s.req.xs, bits := v }))) := by
  have hlow : 1 ≤ v.length := by simpa using (readRawX_length hread).1
  rw [exec_newb_of_readRawX hread, newFromBits_rawBits hlow, resultOutputs]

/-- Settles O30: the strict boundary, then the derived BitSequence. -/
theorem constructFromBits : Obligations.ConstructFromBits := by
  refine ⟨decode_encode .newb, fun s => ⟨fun b hread hother => ?_, fun v hread => ?_⟩⟩
  · rw [exec_newb_of_readRawX hread, newFromBits_of_other_mem hother]
    rfl
  · rw [exec_newb_of_rawBits hread, bitSequenceOutputs_deriveSequence rfl]

end Construction

/-! ## Read-out (R105, R106, R107) -/

section ReadOut

variable {x : SeqOperand}

@[simp] theorem toBitString_length (x : BitSequence) : (toBitString x).length = x.bits.length := List.length_map ..

/-- Settles O32: one character for each bit. -/
theorem readOutString : Obligations.ReadOutString := by
  refine ⟨decode_encode .tostr, fun s x hread => ?_⟩
  have hlen : (toBitString (deriveSequence x)).length = x.bits.length := toBitString_length _
  refine ⟨toBitString (deriveSequence x), ?_, hlen, fun k hk => ?_⟩
  · rw [exec_tostr_of_readSeqX hread, stringOutputs, hlen]
    rfl
  · simp [toBitString, deriveSequence, makeSequence, charZero, charOne, hk]

/-- Settles O33: the decimal is derived from the bits (R24). -/
theorem readOutInteger : Obligations.ReadOutInteger :=
  ⟨decode_encode .toint, fun _ _ => exec_toint_of_readSeqX⟩

/-- Settles O34: the wires carry the bits from the least significant. -/
theorem readOutBits : Obligations.ReadOutBits :=
  ⟨decode_encode .bits, fun _ _ => exec_bits_of_readSeqX⟩

end ReadOut

/-! ## Round trips through the ports (R109) -/

section RoundTrips

variable {p : Params} {r : Request} {o : Outputs} {v : Bits}

/-- A result sequence that the host copies to X is read there as the bits it was, most significant first (R70). -/
theorem readBitsX_copyToX (hfit : widthFits p v.length = true) (hrl : o.rl = some v.length)
    (hrb : o.rb = some (toWires v)) : readBitsX p (o.copyToX r) = .ok v := by
  refine readBitsX_of_placed hfit ?_ ?_
  · simp [Outputs.copyToX, hrl]
  · simp [Outputs.copyToX, hrb]

/-- A BitSequence result copied to X is the operand it was derived from. -/
theorem readSeqX_copyToX {x : SeqOperand} (hfit : widthFits p x.bits.length = true) :
    readSeqX p ((bitSequenceOutputs (deriveSequence x)).copyToX r) = .ok x :=
  readSeqX_ok_iff.mpr ⟨rfl, readBitsX_copyToX hfit rfl rfl⟩

/-- TOINT reads the decimal back from a BitSequence result. -/
theorem exec_toint_copyToX {t : State} {x : SeqOperand} (hout : t.out = bitSequenceOutputs (deriveSequence x))
    (hfit : widthFits t.params x.bits.length = true) :
    ∃ u, exec .toint (t.drive (t.out.copyToX t.req)) = .next u ∧ u.out.rd = some (decodeBits x.bits x.signed) := by
  rw [hout]
  exact ⟨_, exec_toint_of_readSeqX (readSeqX_copyToX hfit), rfl⟩

theorem toBitString_digits (x : BitSequence) : ∀ c ∈ toBitString x, c = 0x30#8 ∨ c = 0x31#8 := by
  intro c hc
  obtain ⟨b, -, rfl⟩ := List.mem_map.mp hc
  cases b with
  | false => exact .inl rfl
  | true => exact .inr rfl

/-- A bit-string spells the bits it was written from (R105). -/
theorem digitBits_toBitString (x : BitSequence) : digitBits (toBitString x) = x.bits := by
  have hdigit (b : Bit) : ((if b then charOne else charZero) == charOne) = b := by cases b <;> rfl
  rw [digitBits, toBitString, List.map_map]
  exact List.map_id'' hdigit x.bits

/-- NEWS undoes TOSTR at the width of the value. -/
theorem newFromString_toBitString {x : SeqOperand} (h : 1 ≤ x.bits.length) :
    newFromString (toBitString (deriveSequence x)) x.bits.length x.signed = .ok (deriveSequence x) := by
  have hlen : (toBitString (deriveSequence x)).length = x.bits.length := toBitString_length _
  have hbits : digitBits (toBitString (deriveSequence x)) = x.bits := digitBits_toBitString _
  rw [newFromString_of_digits (toBitString_digits _) hlen h, hbits]

/-- A BitSequence written out by TOSTR is read back by NEWS, since copying its string leaves the width and the signedness
that were copied to X before. -/
theorem tostr_news_roundTrip {t : State} {x : SeqOperand} (hout : t.out = bitSequenceOutputs (deriveSequence x))
    (hfit : widthFits t.params x.bits.length = true) :
    ∃ u v, exec .tostr (t.drive (t.out.copyToX t.req)) = .next u ∧
      exec .news (u.drive (u.out.copyToString u.req)) = .next v ∧ v.out = t.out ∧ v.params = t.params := by
  have hnews : newFromString (toBitString (deriveSequence x)) x.bits.length x.signed = .ok (deriveSequence x) :=
    newFromString_toBitString (widthFits_iff.mp hfit).1
  rw [hout]
  refine ⟨_, _, exec_tostr_of_readSeqX (readSeqX_copyToX hfit),
    exec_news_of_readStringWidth (readStringWidth_of_placed hfit rfl rfl rfl), ?_, rfl⟩
  exact congrArg (resultOutputs bitSequenceOutputs) hnews

/-- R109 (a). -/
theorem enc_dec_roundTrip {s : State} {w : Nat} (hread : readWidth s.params s.req.xw = .ok w)
    (h : inRange (readInt s.params s.req) w s.req.xs = true) :
    ∃ t u, exec .enc s = .next t ∧ exec .dec (t.drive (t.out.copyToX t.req)) = .next u ∧
      u.out.rd = some (readInt s.params s.req) := by
  have hfit := readWidth_fits hread
  refine ⟨_, _, exec_enc_of_readWidth hread,
    exec_dec_of_readBitsX (readBitsX_copyToX (by simpa using hfit) rfl rfl), ?_⟩
  exact congrArg some (decodeBits_encodeInt (widthFits_iff.mp hfit).1 h)

/-- NEWI on an integer in range leaves a BitSequence with that decimal on the outputs. -/
theorem newi_presents_decimal {s : State} {w : Nat} (hread : readWidth s.params s.req.xw = .ok w)
    (h : inRange (readInt s.params s.req) w s.req.xs = true) :
    ∃ t x, exec .newi s = .next t ∧ t.out = bitSequenceOutputs (deriveSequence x) ∧
      widthFits t.params x.bits.length = true ∧ decodeBits x.bits x.signed = readInt s.params s.req := by
  obtain ⟨v, hnewi, rfl, hdecimal⟩ := exec_newi_of_inRange hread h
  exact ⟨_, _, hnewi, rfl, readWidth_fits hread, hdecimal⟩

/-- R109 (b): the string path gives NEWI's own outputs again, and TOINT reads the integer from them. -/
theorem newi_tostr_news_toint_roundTrip {s : State} {w : Nat} (hread : readWidth s.params s.req.xw = .ok w)
    (h : inRange (readInt s.params s.req) w s.req.xs = true) :
    ∃ t1 t2 t3 t4, exec .newi s = .next t1 ∧ exec .tostr (t1.drive (t1.out.copyToX t1.req)) = .next t2 ∧
      exec .news (t2.drive (t2.out.copyToString t2.req)) = .next t3 ∧ t3.out = t1.out ∧
      exec .toint (t3.drive (t3.out.copyToX t3.req)) = .next t4 ∧ t4.out.rd = some (readInt s.params s.req) := by
  obtain ⟨t1, x, hnewi, hout, hfit, hdecimal⟩ := newi_presents_decimal hread h
  obtain ⟨t2, t3, htostr, hnews, hsame, hparams⟩ := tostr_news_roundTrip hout hfit
  obtain ⟨t4, htoint, hrd⟩ := exec_toint_copyToX (hsame.trans hout) (hparams ▸ hfit)
  exact ⟨t1, t2, t3, t4, hnewi, htostr, hnews, hsame, htoint, hdecimal ▸ hrd⟩

/-- R109 (c). -/
theorem newi_toint_roundTrip {s : State} {w : Nat} (hread : readWidth s.params s.req.xw = .ok w)
    (h : inRange (readInt s.params s.req) w s.req.xs = true) :
    ∃ t u, exec .newi s = .next t ∧ exec .toint (t.drive (t.out.copyToX t.req)) = .next u ∧
      u.out.rd = some (readInt s.params s.req) := by
  obtain ⟨t, x, hnewi, hout, hfit, hdecimal⟩ := newi_presents_decimal hread h
  obtain ⟨u, htoint, hrd⟩ := exec_toint_copyToX hout hfit
  exact ⟨t, u, hnewi, htoint, hdecimal ▸ hrd⟩

/-- R109 (d). -/
theorem bits_newb_roundTrip {s : State} {x : SeqOperand} (hread : readSeqX s.params s.req = .ok x) :
    ∃ t u, exec .bits s = .next t ∧ exec .newb (t.drive (t.out.copyToX t.req)) = .next u ∧
      u.out.rl = some x.bits.length ∧ u.out.rs = some x.signed ∧ u.out.rb = some x.bits.reverse := by
  obtain ⟨hsigned, -⟩ := readSeqX_ok_iff.mp hread
  have hcopied : readBitsX s.params ((bitsOutputs x.bits).copyToX s.req) = .ok x.bits :=
    readBitsX_copyToX (readSeqX_fits hread) rfl rfl
  exact ⟨_, _, exec_bits_of_readSeqX hread, exec_newb_of_rawBits (readBitsX_ok_iff.mp hcopied), rfl,
    congrArg some hsigned.symm, rfl⟩

/-- Settles O35: the four round trips of R109. -/
theorem constructionRoundTrips : Obligations.ConstructionRoundTrips :=
  ⟨fun _ _ hread h =>
    ⟨enc_dec_roundTrip hread h, newi_tostr_news_toint_roundTrip hread h, newi_toint_roundTrip hread h⟩,
    fun _ _ => bits_newb_roundTrip⟩

end RoundTrips

end Sys2Proof.Machine

/-! # The codec: what ENC and DEC answer, and that they are inverse (41_codec.md) -/

namespace Sys2Proof.Machine

/-! ## The cases of ENC (R121) -/

section EncodeCases

variable {n : Int} {w : Nat} {sg : Bit}

theorem encodeInt_unsigned (n : Int) (w : Nat) : encodeInt n w false = decompose w n := rfl

/-- Without a sign to undo, ENC is the decomposition of `n` under either signedness. -/
theorem encodeInt_of_nonneg (h : 0 ≤ n) : encodeInt n w sg = decompose w n := by
  cases sg with
  | false => rfl
  | true =>
    have hpos : ¬ n < 0 := by omega
    simp only [encodeInt, hpos, decide_false, Bool.and_false, Bool.false_eq_true, if_false, if_true,
      Int.natAbs_of_nonneg h]

theorem encodeInt_signed_of_neg (h : n < 0) : encodeInt n w true = (twosComplement (decompose w (-n))).1 := by
  have hmag : (n.natAbs : Int) = -n := by omega
  simp only [encodeInt, h, decide_true, Bool.and_self, if_true, hmag]

theorem encodeInt_unsigned_of_neg (h : n < 0) : encodeInt n w false = List.replicate w false :=
  (encodeInt_unsigned n w).trans (decompose_negative h)

/-- From `2^w` up every power fits, under either signedness. -/
theorem encodeInt_saturates (h : ((2 ^ w : Nat) : Int) ≤ n) : encodeInt n w sg = List.replicate w true := by
  have hpow : 0 < 2 ^ w := Nat.two_pow_pos w
  rw [encodeInt_of_nonneg (by omega), decompose_saturates (by omega)]

theorem uval_encodeInt_of_nonneg (h0 : 0 ≤ n) (h : n < ((2 ^ w : Nat) : Int)) :
    (uval (encodeInt n w sg) : Int) = n := by
  rw [encodeInt_of_nonneg h0, uval_decompose h0 h]

theorem uval_encodeInt_signed_of_neg (hw : 1 ≤ w) (hlo : -((2 ^ w : Nat) : Int) < n) (h : n < 0) :
    (uval (encodeInt n w true) : Int) = ((2 ^ w : Nat) : Int) + n := by
  rw [encodeInt_signed_of_neg h, uval_twosComplement_decompose hw (by omega) (by omega), Int.sub_neg]

/-- A magnitude that saturates is all ones, as that of `1 - 2^w` is, and the negator of all ones is `one(w)`. -/
theorem encodeInt_signed_of_le (hw : 1 ≤ w) (h : n ≤ -((2 ^ w : Nat) : Int)) : encodeInt n w true = oneOf w := by
  have hpow : 2 ^ 1 ≤ 2 ^ w := Nat.pow_le_pow_right Nat.two_pos hw
  have hones : decompose w (-n) = decompose w (((2 ^ w : Nat) : Int) - 1) := by
    rw [decompose_saturates (by omega), decompose_saturates le_rfl]
  have hval := uval_twosComplement_decompose (m := ((2 ^ w : Nat) : Int) - 1) hw (by omega) (by omega)
  rw [encodeInt_signed_of_neg (by omega), hones]
  refine uval_inj (by simp) ?_
  rw [uval_oneOf hw]
  omega

end EncodeCases

/-! ## DEC by the value of the bits (R124) -/

section DecodeValue

variable {v : Bits} {w : Nat}

theorem decodeBits_unsigned (v : Bits) : decodeBits v false = (uval v : Int) := rfl

/-- The sign bit is the upper half of the values of a width. -/
theorem decodeBits_signed (h : 1 ≤ v.length) :
    decodeBits v true =
      if 2 ^ (v.length - 1) ≤ uval v then (uval v : Int) - ((2 ^ v.length : Nat) : Int) else (uval v : Int) := by
  simp only [decodeBits_eq h, msb_iff h, true_and]

theorem decodeBits_signed_of_lt (hw : 1 ≤ w) (hlen : v.length = w) (h : uval v < 2 ^ (w - 1)) :
    msb v = false ∧ decodeBits v true = (uval v : Int) := by
  subst hlen
  rw [decodeBits_signed hw, if_neg (by omega), ← Bool.not_eq_true, msb_iff hw]
  exact ⟨by omega, rfl⟩

theorem decodeBits_signed_of_le (hw : 1 ≤ w) (hlen : v.length = w) (h : 2 ^ (w - 1) ≤ uval v) :
    msb v = true ∧ decodeBits v true = (uval v : Int) - ((2 ^ w : Nat) : Int) := by
  subst hlen
  rw [decodeBits_signed hw, if_pos h, msb_iff hw]
  exact ⟨h, rfl⟩

/-- R124: the sign bit weighs `-2^(W-1)` instead of `2^(W-1)`. -/
theorem decodeBits_eq_uval_sub_msb (h : 1 ≤ v.length) (sg : Bit) :
    decodeBits v sg =
      if sg then (uval v : Int) - ((2 ^ v.length * (msb v).toNat : Nat) : Int) else (uval v : Int) := by
  rw [decodeBits_eq h]
  cases sg with
  | false => simp
  | true => cases msb v <;> simp

end DecodeValue

/-! ## ENC, then DEC, on a width (R121) -/

section EncodeDecode

variable {n : Int} {w : Nat}

theorem decodeBits_encodeInt_signed_upper (hw : 1 ≤ w) (hlo : ((2 ^ (w - 1) : Nat) : Int) ≤ n)
    (hhi : n < ((2 ^ w : Nat) : Int)) : decodeBits (encodeInt n w true) true = n - ((2 ^ w : Nat) : Int) := by
  have hpow : 0 < 2 ^ (w - 1) := Nat.two_pow_pos (w - 1)
  have hval : (uval (encodeInt n w true) : Int) = n := uval_encodeInt_of_nonneg (by omega) hhi
  rw [(decodeBits_signed_of_le hw (encodeInt_length n w true) (by omega)).2, hval]

theorem decodeBits_encodeInt_signed_below (hw : 1 ≤ w) (hlo : -((2 ^ w : Nat) : Int) < n)
    (hhi : n < -((2 ^ (w - 1) : Nat) : Int)) :
    msb (encodeInt n w true) = false ∧ decodeBits (encodeInt n w true) true = n + ((2 ^ w : Nat) : Int) := by
  have hpow : 2 ^ (w - 1) * 2 = 2 ^ w := Nat.two_pow_pred_mul_two hw
  have hval := uval_encodeInt_signed_of_neg hw hlo (by omega)
  obtain ⟨hmsb, hdec⟩ := decodeBits_signed_of_lt hw (encodeInt_length n w true) (by omega)
  exact ⟨hmsb, by rw [hdec, hval, Int.add_comm]⟩

/-- In the signed range a negative integer keeps its sign bit and its value. -/
theorem decodeBits_encodeInt_signed_neg (hw : 1 ≤ w) (hlo : -((2 ^ (w - 1) : Nat) : Int) ≤ n) (h : n < 0) :
    msb (encodeInt n w true) = true ∧ decodeBits (encodeInt n w true) true = n := by
  have hdec := decodeBits_encodeInt hw (inRange_signed_iff.mpr ⟨hlo, by omega⟩)
  have hlen : 1 ≤ (encodeInt n w true).length := hw.trans_eq (encodeInt_length n w true).symm
  exact ⟨(decodeBits_neg_iff hlen).mp (by omega), hdec⟩

/-- ENC undoes DEC on every bit pattern: both have one value among the patterns of the width (R125). -/
theorem encodeInt_decodeBits {v : Bits} (h : 1 ≤ v.length) (sg : Bit) :
    encodeInt (decodeBits v sg) v.length sg = v := by
  have hlt := uval_lt v
  have henc := uval_encodeInt h (inRange_decodeBits h sg)
  refine uval_inj (encodeInt_length ..) (Int.ofNat_inj.mp (henc.trans ?_))
  rw [decodeBits_eq h]
  by_cases hneg : sg = true ∧ msb v = true
  · rw [if_pos hneg, if_pos (by omega), Int.sub_add_cancel]
  · rw [if_neg hneg, if_neg (by omega)]

end EncodeDecode

/-! ## The requests -/

/-- `RL` is the length and `RB` the bits from the least significant wire (R64). -/
theorem bitsOutputs_of_length {v : Bits} {w : Nat} (h : v.length = w) :
    bitsOutputs v = { Outputs.undriven with st := some 0#4, rl := some w, rb := some v.reverse } := by
  subst h
  rfl

/-- Settles O21: the rows of R121, each from the value of ENC's bits. -/
theorem encodeCaseByCase : Obligations.EncodeCaseByCase := by
  intro s w hread
  have hw : 1 ≤ w := (widthFits_iff.mp (readWidth_fits hread)).1
  have henc := exec_enc_of_readWidth hread
  rw [bitsOutputs_of_length (encodeInt_length ..)] at henc
  refine ⟨_, henc, encodeInt_length .., fun hsg => ?_, fun hsg => ?_⟩
  · rw [hsg]
    exact ⟨encodeInt_unsigned_of_neg,
      fun h0 h => ⟨uval_encodeInt_of_nonneg h0 h, (decodeBits_unsigned _).trans (uval_encodeInt_of_nonneg h0 h)⟩,
      encodeInt_saturates⟩
  · rw [hsg]
    exact ⟨uval_encodeInt_of_nonneg,
      fun h0 h => decodeBits_encodeInt hw (inRange_signed_iff.mpr ⟨by omega, h⟩),
      decodeBits_encodeInt_signed_upper hw,
      encodeInt_saturates,
      uval_encodeInt_signed_of_neg hw,
      decodeBits_encodeInt_signed_neg hw,
      decodeBits_encodeInt_signed_below hw,
      encodeInt_signed_of_le hw⟩

/-- Settles O22: DEC presents the closed form of R124. -/
theorem decodeIsTwosComplementValue : Obligations.DecodeIsTwosComplementValue := by
  refine ⟨decode_encode .dec, fun s v hread => ?_⟩
  rw [exec_dec_of_readBitsX hread, decodeBits_eq_uval_sub_msb (readBitsX_length hread).1]
  rfl

/-- Settles O23: the sign bit by R124, and an unsigned decimal is a sum of powers. -/
theorem signBitTellsNegative : Obligations.SignBitTellsNegative := by
  intro s v hread
  refine ⟨_, exec_dec_of_readBitsX hread, fun hsg => ?_, fun hsg => ?_⟩
  · rw [hsg, decodeBits_neg_iff (readBitsX_length hread).1]
  · rw [hsg, decodeBits_unsigned]
    exact Int.natCast_nonneg _

/-- Settles O24: the two directions of R125. -/
theorem codecRoundTrip : Obligations.CodecRoundTrip :=
  ⟨fun _ _ _ => decodeBits_encodeInt, fun _ sg h => encodeInt_decodeBits h sg⟩

/-- A decimal that fits the port and is copied to N is read there as itself (R65, R70). -/
theorem readInt_copyToInt {p : Params} {r : Request} {o : Outputs} {d : Int} (hnw : 0 < p.nw)
    (hfit : intFits p.nw d = true) (hrd : o.rd = some d) : readInt p (o.copyToInt p.nw r) = d :=
  readInt_intPattern hnw hfit (by rw [Outputs.copyToInt, hrd, Option.getD_some])

/-- The width of the bits on X is the declared width that ENC reads. -/
theorem readWidth_of_readBitsX {p : Params} {r : Request} {v : Bits} (h : readBitsX p r = .ok v) :
    readWidth p r.xw = .ok v.length := by
  obtain ⟨hlow, hhigh, hwires⟩ := readRawX_ok_iff.mp (readBitsX_ok_iff.mp h)
  have hlen : v.length = r.xw := by simpa using congrArg List.length hwires
  exact readWidth_ok_iff.mpr ⟨hlow, hhigh, hlen⟩

/-- DEC, then ENC of the copied decimal: X still holds the width and the signedness, and the port is one wire wider than
any width, so it carries the decimal. -/
theorem dec_enc_roundTrip {s : State} {v : Bits} (hread : readBitsX s.params s.req = .ok v)
    (hnw : s.params.wmax + 1 ≤ s.params.nw) :
    ∃ t u, exec .dec s = .next t ∧ exec .enc (t.drive (t.out.copyToInt s.params.nw t.req)) = .next u ∧
      u.out.rb = some v.reverse := by
  obtain ⟨hlow, hhigh⟩ := readBitsX_length hread
  have hwidth := readWidth_of_readBitsX hread
  have hfit := intFits_of_inRange ((Nat.succ_le_succ hhigh).trans hnw) (inRange_decodeBits hlow s.req.xs)
  have hbits :
      encodeInt (readInt s.params ((intOutputs (decodeBits v s.req.xs)).copyToInt s.params.nw s.req)) v.length s.req.xs =
        v := by
    rw [readInt_copyToInt (by omega) hfit rfl, encodeInt_decodeBits hlow]
  exact ⟨_, _, exec_dec_of_readBitsX hread, exec_enc_of_readWidth hwidth, congrArg (some <| toWires ·) hbits⟩

/-- Settles O25: both directions of R125 through the ports. -/
theorem codecRoundTripOnPorts : Obligations.CodecRoundTripOnPorts :=
  ⟨fun _ _ => enc_dec_roundTrip, fun _ _ => dec_enc_roundTrip⟩

end Sys2Proof.Machine

/-! # The bit-logic primitives: sums, the negator and the subtractor on the ports (42_bit_logic.md) -/

namespace Sys2Proof.Machine

/-! ## What each operation of the section answers once its operands are read -/

section BitLogicAnswers

variable {s : State} {a b : List RawBit}

theorem exec_xor (s : State) :
    exec .xor s = .next (s.present (resultOutputs bitOutputs (xorRaw s.req.a1 s.req.b1))) :=
  exec_of_readLine (l := .xor s.req.a1 s.req.b1) rfl

theorem exec_hadd (s : State) :
    exec .hadd s = .next (s.present (resultOutputs sumCarryOutputs (halfAdderRaw s.req.a1 s.req.b1))) :=
  exec_of_readLine (l := .hadd s.req.a1 s.req.b1) rfl

theorem exec_fadd (s : State) :
    exec .fadd s = .next (s.present (resultOutputs sumCarryOutputs (fullAdderRaw s.req.c1 s.req.a1 s.req.b1))) :=
  exec_of_readLine (l := .fadd s.req.c1 s.req.a1 s.req.b1) rfl

theorem exec_radd_of_readRawPair (h : readRawPair s.params s.req = .ok (a, b)) :
    exec .radd s = .next (s.present (resultOutputs carryListOutputs (rippleAddRaw a b s.req.c1))) :=
  exec_of_readLine (l := .radd a b s.req.c1) (map_line_ok h)

theorem exec_inv_of_readBitsX {v : Bits} (h : readBitsX s.params s.req = .ok v) :
    exec .inv s = .next (s.present (bitsOutputs (invert v))) :=
  exec_of_readLine (l := .inv v) (map_line_ok h)

theorem exec_tcn_of_readRawX (h : readRawX s.params s.req = .ok a) :
    exec .tcn s = .next (s.present (resultOutputs droppedCarryOutputs (twosComplementRaw a))) :=
  exec_of_readLine (l := .tcn a) (map_line_ok h)

theorem exec_rsub_of_readRawPair (h : readRawPair s.params s.req = .ok (a, b)) :
    exec .rsub s = .next (s.present (resultOutputs carryListOutputs (rippleSubtractRaw a b))) :=
  exec_of_readLine (l := .rsub a b) (map_line_ok h)

/-- The raw adder and subtractor have no meaning for operands of different lengths (20_memory.md R44). -/
theorem readRawPair_of_length_ne {p : Params} {r : Request} (ha : readRawX p r = .ok a) (hb : readRawY p r = .ok b)
    (hlen : a.length ≠ b.length) : readRawPair p r = .error (.unequalLengths a.length b.length) := by
  simp only [readRawPair, ha, hb, if_neg hlen]

end BitLogicAnswers

/-! ## The strict-Boolean boundary: strict bits pass, anything else is InvalidBitError (R140, R201) -/

section Boundary

variable {α : Type}

theorem other_not_mem_rawBits (v : Bits) : .other ∉ rawBits v := by
  simp [rawBits]

/-- A computation that knows no other error and does not succeed has failed at the boundary. -/
theorem eq_invalidBit_of_raises {x : Except Error α} (herr : Raises (Eq .invalidBit) x) (hok : ∀ v, x ≠ .ok v) :
    x = .error .invalidBit := by
  cases x with
  | ok v => exact absurd rfl (hok v)
  | error e => rw [← herr e rfl]

theorem xorRaw_ok_iff {a b : RawBit} {r : Bit} :
    xorRaw a b = .ok r ↔ ∃ x y, a = .bool x ∧ b = .bool y ∧ r = xorBit x y := by
  simp [xorRaw, except_bind_ok_iff, strictBit_ok_iff, pure, Except.pure, eq_comm (a := r)]

theorem halfAdderRaw_ok_iff {a b : RawBit} {r : Bit × Bit} :
    halfAdderRaw a b = .ok r ↔ ∃ x y, a = .bool x ∧ b = .bool y ∧ r = halfAdder x y := by
  simp [halfAdderRaw, except_bind_ok_iff, strictBit_ok_iff, pure, Except.pure, eq_comm (a := r)]

theorem fullAdderRaw_ok_iff {c a b : RawBit} {r : Bit × Bit} :
    fullAdderRaw c a b = .ok r ↔ ∃ x y z, a = .bool x ∧ b = .bool y ∧ c = .bool z ∧ r = fullAdder z x y := by
  simp [fullAdderRaw, except_bind_ok_iff, strictBit_ok_iff, pure, Except.pure, eq_comm (a := r)]

theorem xorRaw_of_other {a b : RawBit} (h : a = .other ∨ b = .other) : xorRaw a b = .error .invalidBit := by
  refine eq_invalidBit_of_raises (xorRaw_raises rfl a b) fun r hr => ?_
  obtain ⟨x, y, rfl, rfl, -⟩ := xorRaw_ok_iff.mp hr
  simp at h

theorem halfAdderRaw_of_other {a b : RawBit} (h : a = .other ∨ b = .other) :
    halfAdderRaw a b = .error .invalidBit := by
  refine eq_invalidBit_of_raises (halfAdderRaw_raises rfl a b) fun r hr => ?_
  obtain ⟨x, y, rfl, rfl, -⟩ := halfAdderRaw_ok_iff.mp hr
  simp at h

theorem fullAdderRaw_of_other {c a b : RawBit} (h : c = .other ∨ a = .other ∨ b = .other) :
    fullAdderRaw c a b = .error .invalidBit := by
  refine eq_invalidBit_of_raises (fullAdderRaw_raises rfl c a b) fun r hr => ?_
  obtain ⟨x, y, z, rfl, rfl, rfl, -⟩ := fullAdderRaw_ok_iff.mp hr
  simp at h

theorem rippleAddRaw_of_other {a b : List RawBit} {c : RawBit} (h : .other ∈ a ∨ .other ∈ b ∨ c = .other) :
    rippleAddRaw a b c = .error .invalidBit := by
  refine eq_invalidBit_of_raises (rippleAddRaw_raises rfl a b c) fun r hr => ?_
  obtain ⟨x, y, z, rfl, rfl, rfl, -⟩ := rippleAddRaw_ok_iff.mp hr
  simp [other_not_mem_rawBits] at h

theorem twosComplementRaw_of_other {a : List RawBit} (h : .other ∈ a) :
    twosComplementRaw a = .error .invalidBit := by
  refine eq_invalidBit_of_raises (twosComplementRaw_raises rfl a) fun r hr => ?_
  obtain ⟨x, rfl, -⟩ := twosComplementRaw_ok_iff.mp hr
  exact other_not_mem_rawBits x h

theorem rippleSubtractRaw_of_other {a b : List RawBit} (h : .other ∈ a ∨ .other ∈ b) :
    rippleSubtractRaw a b = .error .invalidBit := by
  refine eq_invalidBit_of_raises (rippleSubtractRaw_raises rfl a b) fun r hr => ?_
  obtain ⟨x, y, rfl, rfl, -⟩ := rippleSubtractRaw_ok_iff.mp hr
  simp [other_not_mem_rawBits] at h

end Boundary

/-! ## One bit at a time (R140, R141, R142) -/

theorem xorBit_eq_decide (a b : Bit) : xorBit a b = decide (a ≠ b) := by
  cases a <;> cases b <;> rfl

theorem halfAdder_eq (a b : Bit) : halfAdder a b = (decide (a ≠ b), a && b) := by
  rw [halfAdder, xorBit_eq_decide]

/-- The second half adder takes the sum of the first (R142). -/
theorem fullAdder_eq (c a b : Bit) :
    fullAdder c a b =
      (decide (c ≠ decide (a ≠ b)), (c && decide (a ≠ b)) || (a && b)) := by
  simp only [fullAdder, halfAdder_eq]

/-- The arithmetic law of the half adder (R141). -/
theorem halfAdder_law (a b : Bit) : a.toNat + b.toNat = 2 * (halfAdder a b).2.toNat + (halfAdder a b).1.toNat := by
  cases a <;> cases b <;> rfl

/-- Settles O11: the exclusive or is the test whether the bits differ. -/
theorem xorAnswersWhetherBitsDiffer : Obligations.XorAnswersWhetherBitsDiffer := by
  refine ⟨decode_encode .xor, fun s => ⟨fun a b ha hb => ?_, fun hother => ?_⟩⟩
  · rw [exec_xor, xorRaw_ok_iff.mpr ⟨a, b, ha, hb, rfl⟩, xorBit_eq_decide]
    rfl
  · rw [exec_xor, xorRaw_of_other hother]
    rfl

/-- Settles O12: the rows of R141 and their arithmetic law. -/
theorem halfAdderSumAndCarry : Obligations.HalfAdderSumAndCarry := by
  refine ⟨decode_encode .hadd, fun s => ⟨fun a b ha hb => ⟨?_, ?_⟩, fun hother => ?_⟩⟩
  · rw [exec_hadd, halfAdderRaw_ok_iff.mpr ⟨a, b, ha, hb, rfl⟩, halfAdder_eq]
    rfl
  · simpa only [halfAdder_eq] using halfAdder_law a b
  · rw [exec_hadd, halfAdderRaw_of_other hother]
    rfl

/-- Settles O13: the chain of R142 written out, and its arithmetic law R150. -/
theorem fullAdderSumAndCarry : Obligations.FullAdderSumAndCarry := by
  refine ⟨decode_encode .fadd, fun s => ⟨fun c a b hc ha hb => ⟨?_, ?_⟩, fun hother => ?_⟩⟩
  · rw [exec_fadd, fullAdderRaw_ok_iff.mpr ⟨a, b, c, ha, hb, hc, rfl⟩, fullAdder_eq]
    rfl
  · simpa only [fullAdder_eq] using fullAdder_law c a b
  · rw [exec_fadd, fullAdderRaw_of_other hother]
    rfl

/-! ## The ripple-carry adder (R143) and the inverter (R145) -/

/-- A carry remains exactly when the exact sum does not fit the operands' length (R143). -/
theorem rippleAdd_carry_iff {A B : Bits} (c : Bit) (h : A.length = B.length) :
    (rippleAdd A B c).2 = true ↔ 2 ^ A.length ≤ uval A + uval B + c.toNat := by
  have hlaw := rippleAdd_law c h
  have hlt := uval_lt (rippleAdd A B c).1
  rw [rippleAdd_length c h] at hlt
  cases hcarry : (rippleAdd A B c).2 with
  | false =>
    rw [hcarry, Bool.toNat_false, Nat.mul_zero] at hlaw
    simp only [Bool.false_eq_true, false_iff]
    omega
  | true =>
    rw [hcarry, Bool.toNat_true, Nat.mul_one] at hlaw
    simp only [true_iff]
    omega

/-- A sum of `w` bits with its carry prepended: one bit longer exactly when the carry remains (R67, R143). -/
theorem carryListOutputs_of_length {sum : Bits} {carry : Bit} {w : Nat} (h : sum.length = w) :
    carryListOutputs (sum, carry) =
      { Outputs.undriven with
          st := some 0#4, rl := some (w + carry.toNat), rb := some (if carry then true :: sum else sum).reverse,
          rf1 := some carry } := by
  subst h
  cases carry <;> rfl

theorem exec_radd_of_rawBits {s : State} {A B : Bits} {c : Bit}
    (hread : readRawPair s.params s.req = .ok (rawBits A, rawBits B)) (hc : s.req.c1 = .bool c) :
    exec .radd s = .next (s.present (carryListOutputs (rippleAdd A B c))) := by
  rw [exec_radd_of_readRawPair hread, rippleAddRaw_ok_iff.mpr ⟨A, B, c, rfl, rfl, hc, rfl⟩, resultOutputs]

/-- Strict operands that the pair reader lets through have one length, and at least one bit. -/
theorem readRawPair_rawBits_length {p : Params} {r : Request} {A B : Bits}
    (h : readRawPair p r = .ok (rawBits A, rawBits B)) : 1 ≤ A.length ∧ A.length = B.length := by
  obtain ⟨hx, -, hlen⟩ := readRawPair_ok_iff.mp h
  exact ⟨by simpa using (readRawX_length hx).1, by simpa using hlen⟩

/-- Settles O14: the sum bits and the carry of the chain, by the law R150. -/
theorem rippleAddGivesExactSum : Obligations.RippleAddGivesExactSum := by
  refine ⟨decode_encode .radd, fun s => ⟨fun A B c hread hc => ?_, fun a b hread hother => ?_,
    fun a b ha hb hlen => ?_⟩⟩
  · obtain ⟨-, hlen⟩ := readRawPair_rawBits_length hread
    have hsum : (rippleAdd A B c).1.length = A.length := rippleAdd_length c hlen
    refine ⟨(rippleAdd A B c).1, (rippleAdd A B c).2, ?_, hsum, rippleAdd_law c hlen⟩
    rw [exec_radd_of_rawBits hread hc, ← carryListOutputs_of_length hsum]
  · rw [exec_radd_of_readRawPair hread, rippleAddRaw_of_other hother]
    rfl
  · exact exec_refused_of_readRawPair_error (readRawPair_of_length_ne ha hb hlen) (by decide)

/-- Each complement is undone by the next (R145). -/
theorem invert_invert (v : Bits) : invert (invert v) = v := by
  simp only [invert, List.map_map, Bool.involutive_not.comp_self, List.map_id]

/-- Settles O15: the inverter is a map, so it keeps the length and works bit by bit. -/
theorem invertComplementsEveryBit : Obligations.InvertComplementsEveryBit := by
  refine ⟨decode_encode .inv, fun s A hread => ⟨invert A, ?_, invert_length A, fun k hk => ?_,
    invert_invert A, uval_invert A⟩⟩
  · rw [exec_inv_of_readBitsX hread, bitsOutputs_of_length (invert_length A)]
  · simp [invert, hk]

/-! ## The laws of the negator (R147) -/

section Negator

variable {v : Bits}

/-- The pattern `zeros(L)` is the one of value 0. -/
theorem eq_zeros_iff_uval : v = List.replicate v.length false ↔ uval v = 0 := by
  constructor
  · intro h
    rw [h, uval_zeros]
  · intro h
    exact uval_inj (by simp) (by rw [h, uval_zeros])

/-- The pattern `"1" ++ zeros(L-1)` is the one of value `2^(L-1)`. -/
theorem eq_one_zeros_iff_uval (h : 1 ≤ v.length) :
    v = true :: List.replicate (v.length - 1) false ↔ uval v = 2 ^ (v.length - 1) := by
  have hval : uval (true :: List.replicate (v.length - 1) false) = 2 ^ (v.length - 1) := by simp
  constructor
  · intro heq
    exact (congrArg uval heq).trans hval
  · intro hv
    exact uval_inj (by simp; omega) (hv.trans hval.symm)

/-- The carry remains exactly when the inverse is all ones, so that adding one overflows (R146). -/
theorem twosComplement_carry_iff (h : 1 ≤ v.length) : (twosComplement v).2 = true ↔ uval v = 0 := by
  have hinvert := uval_invert v
  rw [twosComplement, rippleAdd_carry_iff false (by simp), invert_length, uval_oneOf h, Bool.toNat_false]
  omega

/-- A value other than 0 is taken from `2^L`; the negator of 0 is 0 (R147 (a)). -/
theorem uval_twosComplement_cases (h : 1 ≤ v.length) :
    uval v = 0 ∧ uval (twosComplement v).1 = 0 ∨
      uval v ≠ 0 ∧ uval (twosComplement v).1 + uval v = 2 ^ v.length := by
  have hlaw := twosComplement_law h
  have hcarry := twosComplement_carry_iff h
  by_cases hzero : uval v = 0
  · rw [hcarry.mpr hzero, Bool.toNat_true] at hlaw
    exact .inl ⟨hzero, by omega⟩
  · rw [Bool.eq_false_iff.mpr (mt hcarry.mp hzero), Bool.toNat_false] at hlaw
    exact .inr ⟨hzero, by omega⟩

/-- R147 (a). -/
theorem uval_twosComplement (h : 1 ≤ v.length) :
    uval (twosComplement v).1 = (2 ^ v.length - uval v) % 2 ^ v.length := by
  obtain ⟨hzero, hneg⟩ | ⟨hne, hneg⟩ := uval_twosComplement_cases h
  · rw [hneg, hzero, Nat.sub_zero, Nat.mod_self]
  · rw [Nat.mod_eq_of_lt] <;> omega

/-- R147 (b): both patterns have one value. -/
theorem twosComplement_involutive (h : 1 ≤ v.length) : (twosComplement (twosComplement v).1).1 = v := by
  have hlt := uval_lt v
  have hlen : (twosComplement v).1.length = v.length := twosComplement_length v
  have htwice := uval_twosComplement_cases (h.trans_eq hlen.symm)
  rw [hlen] at htwice
  have honce := uval_twosComplement_cases h
  exact uval_inj (by simp) (by omega)

/-- R147 (c): a value is its own negation modulo `2^L` when it is 0 or half of `2^L`. -/
theorem twosComplement_eq_self_iff (h : 1 ≤ v.length) :
    (twosComplement v).1 = v ↔
      v = List.replicate v.length false ∨ v = true :: List.replicate (v.length - 1) false := by
  have hpow : 2 ^ (v.length - 1) * 2 = 2 ^ v.length := Nat.two_pow_pred_mul_two h
  have hcases := uval_twosComplement_cases h
  have hval : (twosComplement v).1 = v ↔ uval (twosComplement v).1 = uval v :=
    ⟨congrArg uval, uval_inj (twosComplement_length v)⟩
  rw [hval, eq_zeros_iff_uval, eq_one_zeros_iff_uval h]
  omega

/-- R147 (d): off the one value whose negation has no pattern, the signed reading is negated. -/
theorem decodeBits_twosComplement (h : 1 ≤ v.length) (hne : uval v ≠ 2 ^ (v.length - 1)) :
    decodeBits (twosComplement v).1 true = -decodeBits v true := by
  have hpow : 2 ^ (v.length - 1) * 2 = 2 ^ v.length := Nat.two_pow_pred_mul_two h
  have hlt := uval_lt v
  have hlen : (twosComplement v).1.length = v.length := twosComplement_length v
  have hcases := uval_twosComplement_cases h
  rw [decodeBits_signed (h.trans_eq hlen.symm), decodeBits_signed h, hlen]
  split_ifs <;> omega

/-- R147 (d), the exception: the least value of the width. -/
theorem decodeBits_of_uval_eq_half (h : 1 ≤ v.length) (hv : uval v = 2 ^ (v.length - 1)) :
    decodeBits v true = -((2 ^ (v.length - 1) : Nat) : Int) := by
  have hpow : 2 ^ (v.length - 1) * 2 = 2 ^ v.length := Nat.two_pow_pred_mul_two h
  rw [decodeBits_signed h, if_pos hv.ge]
  omega

/-- Settles O17: the laws (a) to (d) of R147. -/
theorem negatorLaws : Obligations.NegatorLaws := fun A h =>
  ⟨twosComplement_length A, uval_twosComplement h, twosComplement_involutive h, twosComplement_eq_self_iff h,
    fun hne => decodeBits_twosComplement h (mt (eq_one_zeros_iff_uval h).mpr hne),
    fun heq => decodeBits_of_uval_eq_half h ((eq_one_zeros_iff_uval h).mp heq)⟩

end Negator

/-! ## TCN requests (R146, R147) -/

section NegatorRequests

variable {s : State} {A : Bits}

/-- TCN drives the sum bits alone and shows the dropped carry (R146). -/
theorem droppedCarryOutputs_of_length {sum : Bits} {carry : Bit} {w : Nat} (h : sum.length = w) :
    droppedCarryOutputs (sum, carry) =
      { Outputs.undriven with st := some 0#4, rl := some w, rb := some sum.reverse, rf1 := some carry } := by
  subst h
  rfl

theorem exec_tcn_of_rawBits (hread : readRawX s.params s.req = .ok (rawBits A)) :
    exec .tcn s = .next (s.present (droppedCarryOutputs (twosComplement A))) := by
  rw [exec_tcn_of_readRawX hread, twosComplementRaw_ok_iff.mpr ⟨A, rfl, rfl⟩, resultOutputs]

theorem readRawX_rawBits_length {p : Params} {r : Request} (h : readRawX p r = .ok (rawBits A)) : 1 ≤ A.length := by
  simpa using (readRawX_length h).1

/-- Settles O16: the carry that RF1 shows tells the value 0, which only the all-zero operand has. -/
theorem negatorGivesNegationModulo : Obligations.NegatorGivesNegationModulo := by
  refine ⟨decode_encode .tcn, fun s => ⟨fun A hread => ?_, fun a hread hother => ?_⟩⟩
  · have hlow := readRawX_rawBits_length hread
    have hlen := twosComplement_length A
    have hcarry : (twosComplement A).2 = decide (A = List.replicate A.length false) := by
      rw [Bool.eq_iff_iff, decide_eq_true_iff, eq_zeros_iff_uval, twosComplement_carry_iff hlow]
    refine ⟨(twosComplement A).1, ?_, hlen, uval_twosComplement hlow⟩
    rw [exec_tcn_of_rawBits hread, ← droppedCarryOutputs_of_length hlen, ← hcarry]
  · rw [exec_tcn_of_readRawX hread, twosComplementRaw_of_other hother]
    rfl

/-- The negator's result fits wherever its operand did. -/
theorem twosComplement_fits {p : Params} (h : widthFits p A.length = true) :
    widthFits p (twosComplement A).1.length = true := by
  rwa [twosComplement_length]

/-- Settles O18: the second request reads the first one's bits from X and negates them back (R147 (b)). -/
theorem negatingTwiceRestoresOperand : Obligations.NegatingTwiceRestoresOperand := by
  intro s A hread
  have hlow := readRawX_rawBits_length hread
  have hfit : widthFits s.params A.length = true := by simpa using readRawX_fits hread
  have hcopied : readBitsX s.params ((droppedCarryOutputs (twosComplement A)).copyToX s.req) =
      .ok (twosComplement A).1 := readBitsX_copyToX (twosComplement_fits hfit) rfl rfl
  have hback := twosComplement_involutive hlow
  exact ⟨_, _, exec_tcn_of_rawBits hread, exec_tcn_of_rawBits (readBitsX_ok_iff.mp hcopied),
    congrArg (fun v : Bits => some v.length) hback, congrArg (fun v : Bits => some v.reverse) hback⟩

end NegatorRequests

/-! ## The ripple-carry subtractor (R148, R149) -/

section Subtractor

variable {s : State} {A B : Bits}

/-- The laws of the adder and of the negator together: the sum takes in both carries (R149). -/
theorem rippleSubtract_law (h : 1 ≤ A.length) (hlen : A.length = B.length) :
    uval (rippleSubtract A B).1 +
        2 ^ A.length * ((rippleSubtract A B).2.toNat + (twosComplement B).2.toNat) + uval B =
      2 ^ A.length + uval A := by
  have hadd := rippleAdd_law (a := A) (b := (twosComplement B).1) false (by rw [twosComplement_length, hlen])
  have hneg := twosComplement_law (h.trans_eq hlen)
  rw [Bool.toNat_false, Nat.add_zero] at hadd
  rw [← hlen] at hneg
  rw [rippleSubtract, Nat.mul_add]
  omega

/-- The low bits are the difference modulo `2^L` (R149). -/
theorem uval_rippleSubtract (h : 1 ≤ A.length) (hlen : A.length = B.length) :
    uval (rippleSubtract A B).1 = (2 ^ A.length + uval A - uval B) % 2 ^ A.length := by
  have hlt := uval_lt (rippleSubtract A B).1
  rw [rippleSubtract_length hlen] at hlt
  rw [← rippleSubtract_law h hlen, Nat.add_sub_cancel, Nat.add_mul_mod_self_left, Nat.mod_eq_of_lt hlt]

/-- The carry is no clean "no borrow": a zero subtrahend leaves it at 0 too, its own carry having been dropped (R149). -/
theorem rippleSubtract_carry_iff (h : 1 ≤ A.length) (hlen : A.length = B.length) :
    (rippleSubtract A B).2 = true ↔ uval B ≠ 0 ∧ uval B ≤ uval A := by
  have hlt := uval_lt A
  have hnegated := uval_twosComplement_cases (h.trans_eq hlen)
  rw [← hlen] at hnegated
  rw [rippleSubtract, rippleAdd_carry_iff false (by rw [twosComplement_length, hlen]), Bool.toNat_false]
  omega

theorem exec_rsub_of_rawBits (hread : readRawPair s.params s.req = .ok (rawBits A, rawBits B)) :
    exec .rsub s = .next (s.present (carryListOutputs (rippleSubtract A B))) := by
  rw [exec_rsub_of_readRawPair hread, rippleSubtractRaw_ok_iff.mpr ⟨A, B, rfl, rfl, rfl⟩, resultOutputs]

/-- Settles O19: the laws of R149. -/
theorem rippleSubtractGivesDifferenceModulo : Obligations.RippleSubtractGivesDifferenceModulo := by
  refine ⟨decode_encode .rsub, fun s => ⟨fun A B hread => ?_, fun a b hread hother => ?_,
    fun a b ha hb hlen => ?_⟩⟩
  · obtain ⟨hlow, hlen⟩ := readRawPair_rawBits_length hread
    have hsum : (rippleSubtract A B).1.length = A.length := rippleSubtract_length hlen
    refine ⟨(rippleSubtract A B).1, (rippleSubtract A B).2, ?_, hsum, uval_rippleSubtract hlow hlen,
      rippleSubtract_carry_iff hlow hlen⟩
    rw [exec_rsub_of_rawBits hread, ← carryListOutputs_of_length hsum]
  · rw [exec_rsub_of_readRawPair hread, rippleSubtractRaw_of_other hother]
    rfl
  · exact exec_refused_of_readRawPair_error (readRawPair_of_length_ne ha hb hlen) (by decide)

/-- The bits of Y, put on X, are read there as they were on Y. -/
theorem readRawX_of_yOnX (p : Params) (r : Request) :
    readRawX p { r with xw := r.yw, xb := r.yb } = readRawY p r := by
  rw [readRawX_eq, readRawY_eq]

/-- A result sequence that the host copies to Y is read there beside whatever stands on X (R70); C1 has no part in it. -/
theorem readRawPair_copyToY {p : Params} {r : Request} {o : Outputs} {a : List RawBit} {v : Bits} (c : RawBit)
    (ha : readRawX p r = .ok a) (hlen : a.length = v.length) (hrl : o.rl = some v.length)
    (hrb : o.rb = some (toWires v)) : readRawPair p { o.copyToY r with c1 := c } = .ok (a, rawBits v) := by
  have hfit : widthFits p (rawBits v).length = true := by
    rw [rawBits_length, ← hlen]
    exact readRawX_fits ha
  have hy : readRawY p { o.copyToY r with c1 := c } = .ok (rawBits v) := by
    refine readRawY_of_placed hfit ?_ ?_
    · simp [Outputs.copyToY, hrl]
    · simp [Outputs.copyToY, hrb]
  exact readRawPair_ok_iff.mpr ⟨ha, hy, by rw [hlen, rawBits_length]⟩

/-- Settles O20: RADD reads A from X and the negated subtrahend from Y, and RSUB is that sum by R148. -/
theorem subtractionIsAdditionOfNegation : Obligations.SubtractionIsAdditionOfNegation := by
  intro s A B hread
  obtain ⟨hx, hy, hlen⟩ := readRawPair_ok_iff.mp hread
  have hpair : readRawPair s.params
      { (droppedCarryOutputs (twosComplement B)).copyToY s.req with c1 := .bool false } =
        .ok (rawBits A, rawBits (twosComplement B).1) :=
    readRawPair_copyToY _ hx (by simpa using hlen) rfl rfl
  exact ⟨_, _, exec_tcn_of_rawBits ((readRawX_of_yOnX s.params s.req).trans hy), exec_radd_of_rawBits hpair rfl,
    exec_rsub_of_rawBits hread⟩

end Subtractor

end Sys2Proof.Machine

/-! # The arithmetic operators: exact or wrapped integers, or an error (43_arithmetic.md) -/

namespace Sys2Proof.Machine

/-! ## What ADD and SUB answer once their operands are read -/

section ArithmeticAnswers

variable {s : State} {x y : SeqOperand}

theorem exec_add_of_readSeqPair (h : readSeqPair s.params s.req = .ok (x, y)) :
    exec .add s =
      .next (s.present (resultOutputs bitSequenceOutputs
        (addSequences s.params.signedOvfCheck (deriveSequence x) (deriveSequence y)))) :=
  exec_of_readLine (l := .add x y) (map_line_ok h)

theorem exec_sub_of_readSeqPair (h : readSeqPair s.params s.req = .ok (x, y)) :
    exec .sub s =
      .next (s.present (resultOutputs bitSequenceOutputs (subSequences (deriveSequence x) (deriveSequence y)))) :=
  exec_of_readLine (l := .sub x y) (map_line_ok h)

theorem readSeqPair_nonempty {p : Params} {r : Request} (h : readSeqPair p r = .ok (x, y)) : 1 ≤ x.bits.length :=
  (readSeqX_length (readSeqPair_ok_iff.mp h).1).1

end ArithmeticAnswers

/-! ## The results on compatible operands (R160, R164) -/

section CompatibleOperands

variable {A B : Bits} {sg : Bit}

/-- The BitSequence of given bits is the one an operand of these bits derives (R24, R108). -/
theorem newFromStrictBits_eq_deriveSequence {v : Bits} (h : 1 ≤ v.length) (sg : Bit) :
    newFromStrictBits v sg = .ok (deriveSequence { signed := sg, bits := v }) :=
  newFromStrictBits_eq h sg

/-- The outputs of a BitSequence result of width `w` (R64). -/
theorem resultOutputs_deriveSequence {v : Bits} {w : Nat} (h : v.length = w) (sg : Bit) :
    resultOutputs bitSequenceOutputs (.ok (deriveSequence { signed := sg, bits := v })) =
      { Outputs.undriven with
          st := some 0#4, rl := some w, rs := some sg, rb := some v.reverse, rd := some (decodeBits v sg),
          rlo := some (rangeBounds w sg).1, rhi := some (rangeBounds w sg).2 } :=
  bitSequenceOutputs_deriveSequence h

theorem compatible_of_length (sg : Bit) (hlen : A.length = B.length) :
    compatible (deriveSequence { signed := sg, bits := A }) (deriveSequence { signed := sg, bits := B }) = true :=
  compatible_deriveSequence.mpr ⟨rfl, hlen⟩

/-- The raw sum of compatible operands, unless the overflow test of their signedness rejects it (R160). -/
theorem addSequences_of_compatible (h : 1 ≤ A.length) (hlen : A.length = B.length) (ovfCheck : Bool) :
    addSequences ovfCheck (deriveSequence { signed := sg, bits := A }) (deriveSequence { signed := sg, bits := B }) =
      if (if sg then ovfCheck && signedOverflow A B (rippleAdd A B).1 else (rippleAdd A B).2) then .error .overflow
      else .ok (deriveSequence { signed := sg, bits := (rippleAdd A B).1 }) := by
  have hsum : 1 ≤ (rippleAdd A B).1.length := h.trans_eq (rippleAdd_length false hlen).symm
  rw [addSequences, if_pos (compatible_of_length sg hlen), ← newFromStrictBits_eq_deriveSequence hsum]
  cases sg <;> rfl

/-- The raw difference of compatible operands, unless they are unsigned and the minuend is not the greater one (R164). -/
theorem subSequences_of_compatible (h : 1 ≤ A.length) (hlen : A.length = B.length) :
    subSequences (deriveSequence { signed := sg, bits := A }) (deriveSequence { signed := sg, bits := B }) =
      if sg = false ∧ uval A ≤ uval B then .error .underflow
      else .ok (deriveSequence { signed := sg, bits := (rippleSubtract A B).1 }) := by
  have hdiff : 1 ≤ (rippleSubtract A B).1.length := h.trans_eq (rippleSubtract_length hlen).symm
  rw [subSequences, if_pos (compatible_of_length sg hlen), ← newFromStrictBits_eq_deriveSequence hdiff]
  refine if_congr ?_ rfl rfl
  cases sg <;> simp [deriveSequence, makeSequence, decodeBits_unsigned]

end CompatibleOperands

/-! ## Unsigned operands (R161, R165) -/

section Unsigned

variable {A B : Bits}

/-- Without a carry the sum bits are the exact sum (R161). -/
theorem uval_rippleAdd_of_lt (hlen : A.length = B.length) (h : uval A + uval B < 2 ^ A.length) :
    (rippleAdd A B).2 = false ∧ uval (rippleAdd A B).1 = uval A + uval B := by
  have hcarry : (rippleAdd A B).2 = false := by
    rw [← Bool.not_eq_true, rippleAdd_carry_iff false hlen]
    exact not_le.mpr h
  have hlaw := rippleAdd_law false hlen
  rw [hcarry] at hlaw
  exact ⟨hcarry, hlaw⟩

/-- Without a borrow the difference bits are the exact difference (R165). -/
theorem uval_rippleSubtract_of_le (h : 1 ≤ A.length) (hlen : A.length = B.length) (hle : uval B ≤ uval A) :
    uval (rippleSubtract A B).1 + uval B = uval A := by
  have hlt : uval A - uval B < 2 ^ A.length := (Nat.sub_le ..).trans_lt (uval_lt A)
  rw [uval_rippleSubtract h hlen, Nat.add_sub_assoc hle, Nat.add_mod_left, Nat.mod_eq_of_lt hlt, Nat.sub_add_cancel hle]

/-- Settles O36: the carry is the overflow, and without it the sum bits are the exact sum. -/
theorem unsignedAddition : Obligations.UnsignedAddition := by
  rintro s ⟨_, A⟩ ⟨_, B⟩ hread rfl rfl (hlen : A.length = B.length)
  rw [exec_add_of_readSeqPair hread, addSequences_of_compatible (readSeqPair_nonempty hread) hlen]
  constructor
  · intro (hfits : uval A + uval B ≤ 2 ^ A.length - 1)
    obtain ⟨hcarry, hsum⟩ := uval_rippleAdd_of_lt hlen (Nat.lt_of_le_pred (Nat.two_pow_pos _) hfits)
    refine ⟨(rippleAdd A B).1, ?_, rippleAdd_length false hlen, hsum⟩
    rw [if_neg (by simp [hcarry]), resultOutputs_deriveSequence (rippleAdd_length false hlen), decodeBits_unsigned, hsum]
    rfl
  · intro (hover : 2 ^ A.length - 1 < uval A + uval B)
    have hcarry : (rippleAdd A B).2 = true := (rippleAdd_carry_iff false hlen).mpr (Nat.le_of_pred_lt hover)
    rw [if_pos (by simp [hcarry])]
    rfl

/-- Settles O38: a greater minuend leaves no borrow, and any other is what the test before the subtraction rejects. -/
theorem unsignedSubtraction : Obligations.UnsignedSubtraction := by
  rintro s ⟨_, A⟩ ⟨_, B⟩ hread rfl rfl (hlen : A.length = B.length)
  have hlow := readSeqPair_nonempty hread
  rw [exec_sub_of_readSeqPair hread, subSequences_of_compatible hlow hlen]
  constructor
  · intro (hlt : uval B < uval A)
    have hdiff := uval_rippleSubtract_of_le hlow hlen hlt.le
    refine ⟨(rippleSubtract A B).1, ?_, rippleSubtract_length hlen, hdiff⟩
    rw [if_neg fun h => hlt.not_ge h.2, resultOutputs_deriveSequence (rippleSubtract_length hlen), decodeBits_unsigned,
      ← hdiff, Int.natCast_add, Int.add_sub_cancel]
    rfl
  · intro hle
    rw [if_pos ⟨rfl, hle⟩]
    rfl

end Unsigned

/-! ## Signed integers modulo `2^w` (R163, R166) -/

section Wrap

variable {v : Bits} {w : Nat} {t a b : Int}

/-- An integer brought into the signed range of a width by one step of `2^w`, if it is outside (R163 (b), R166). -/
def wrapSigned (w : Nat) (t : Int) : Int :=
  if t < -((2 ^ (w - 1) : Nat) : Int) then t + ((2 ^ w : Nat) : Int)
  else if ((2 ^ (w - 1) : Nat) : Int) ≤ t then t - ((2 ^ w : Nat) : Int) else t

theorem wrapSigned_modEq (w : Nat) (t : Int) : wrapSigned w t ≡ t [ZMOD ((2 ^ w : Nat) : Int)] := by
  unfold wrapSigned
  split_ifs
  · exact Int.add_modEq_right
  · exact Int.sub_modulus_modEq_iff.mpr rfl
  · rfl

/-- One step is enough for any sum or difference of two integers of the range. -/
theorem inRange_wrapSigned (hw : 1 ≤ w) (hlo : -((2 ^ w : Nat) : Int) ≤ t) (hhi : t < ((2 ^ w : Nat) : Int)) :
    inRange (wrapSigned w t) w true = true := by
  have hpow : 2 ^ (w - 1) * 2 = 2 ^ w := Nat.two_pow_pred_mul_two hw
  rw [inRange_signed_iff, wrapSigned]
  split_ifs <;> omega

/-- The range of a width holds one integer of each class modulo `2^w`. -/
theorem eq_of_modEq_of_inRange (hw : 1 ≤ w) (ha : inRange a w true = true) (hb : inRange b w true = true)
    (h : a ≡ b [ZMOD ((2 ^ w : Nat) : Int)]) : a = b := by
  have hpow : 2 ^ (w - 1) * 2 = 2 ^ w := Nat.two_pow_pred_mul_two hw
  rw [inRange_signed_iff] at ha hb
  have hzero : b - a = 0 := Int.eq_zero_of_dvd_of_natAbs_lt_natAbs h.dvd (by omega)
  omega

/-- The signed range is the middle of `-2^w .. 2^w` (R100, R108). -/
theorem two_mul_decodeBits_bounds (hw : 1 ≤ w) (hlen : v.length = w) :
    -((2 ^ w : Nat) : Int) ≤ 2 * decodeBits v true ∧ 2 * decodeBits v true < ((2 ^ w : Nat) : Int) := by
  subst hlen
  have hpow : 2 ^ (v.length - 1) * 2 = 2 ^ v.length := Nat.two_pow_pred_mul_two hw
  have hrange := inRange_signed_iff.mp (inRange_decodeBits hw true)
  omega

/-- Either reading of the bits is their value modulo `2^w` (R124). -/
theorem decodeBits_modEq_uval (hw : 1 ≤ w) (hlen : v.length = w) (sg : Bit) :
    decodeBits v sg ≡ (uval v : Int) [ZMOD ((2 ^ w : Nat) : Int)] := by
  subst hlen
  rw [decodeBits_eq hw]
  split_ifs
  · exact Int.sub_modulus_modEq_iff.mpr rfl
  · rfl

/-- Bits that have the value of `t` modulo `2^w` are read as `t` wrapped into the range. -/
theorem decodeBits_eq_wrapSigned (hw : 1 ≤ w) (hlen : v.length = w) (hlo : -((2 ^ w : Nat) : Int) ≤ t)
    (hhi : t < ((2 ^ w : Nat) : Int)) (h : (uval v : Int) ≡ t [ZMOD ((2 ^ w : Nat) : Int)]) :
    decodeBits v true = wrapSigned w t := by
  subst hlen
  exact eq_of_modEq_of_inRange hw (inRange_decodeBits hw true) (inRange_wrapSigned hw hlo hhi)
    (((decodeBits_modEq_uval hw rfl true).trans h).trans (wrapSigned_modEq _ t).symm)

end Wrap

/-! ## Signed operands -/

section Signed

variable {A B : Bits}

theorem uval_rippleAdd_modEq (hlen : A.length = B.length) :
    (uval (rippleAdd A B).1 : Int) ≡ uval A + uval B [ZMOD ((2 ^ A.length : Nat) : Int)] := by
  have hlaw := rippleAdd_law false hlen
  rw [Bool.toNat_false, Nat.add_zero] at hlaw
  rw [← Int.natCast_add, ← hlaw, Int.natCast_add, Int.natCast_mul, Int.modEq_add_modulus_mul_iff]

theorem uval_rippleSubtract_modEq (h : 1 ≤ A.length) (hlen : A.length = B.length) :
    (uval (rippleSubtract A B).1 : Int) ≡ uval A - uval B [ZMOD ((2 ^ A.length : Nat) : Int)] := by
  have hB := uval_lt B
  rw [← hlen] at hB
  rw [uval_rippleSubtract h hlen, Int.natCast_mod, Int.natCast_sub (by omega), Int.natCast_add, Int.add_sub_assoc]
  exact (Int.mod_modEq ..).trans (Int.modulus_add_modEq_iff.mpr rfl)

/-- The sum bits carry the integer sum modulo `2^w`, whatever the chain's last carry (R163). -/
theorem decodeBits_rippleAdd (h : 1 ≤ A.length) (hlen : A.length = B.length) :
    decodeBits (rippleAdd A B).1 true = wrapSigned A.length (decodeBits A true + decodeBits B true) := by
  have hA := two_mul_decodeBits_bounds h rfl
  have hB := two_mul_decodeBits_bounds h hlen.symm
  refine decodeBits_eq_wrapSigned h (rippleAdd_length false hlen) (by omega) (by omega) ?_
  exact (uval_rippleAdd_modEq hlen).trans
    ((decodeBits_modEq_uval h rfl true).add (decodeBits_modEq_uval h hlen.symm true)).symm

/-- The difference bits carry the integer difference modulo `2^w` (R166). -/
theorem decodeBits_rippleSubtract (h : 1 ≤ A.length) (hlen : A.length = B.length) :
    decodeBits (rippleSubtract A B).1 true = wrapSigned A.length (decodeBits A true - decodeBits B true) := by
  have hA := two_mul_decodeBits_bounds h rfl
  have hB := two_mul_decodeBits_bounds h hlen.symm
  refine decodeBits_eq_wrapSigned h (rippleSubtract_length hlen) (by omega) (by omega) ?_
  exact (uval_rippleSubtract_modEq h hlen).trans
    ((decodeBits_modEq_uval h rfl true).sub (decodeBits_modEq_uval h hlen.symm true)).symm

/-- Operands of one sign, and a result of the other (R162). -/
theorem signedOverflow_eq_true_iff {sum : Bits} :
    signedOverflow A B sum = true ↔ (msb A = true ↔ msb B = true) ∧ ¬(msb sum = true ↔ msb A = true) := by
  rw [signedOverflow, Bool.and_eq_true, beq_iff_eq, bne_iff_ne, ne_eq, Bool.eq_iff_iff (b := msb B),
    Bool.eq_iff_iff (b := msb A)]

/-- The overflow test finds exactly the sums that leave the range (R162). -/
theorem signedOverflow_iff (h : 1 ≤ A.length) (hlen : A.length = B.length) :
    signedOverflow A B (rippleAdd A B).1 = true ↔
      decodeBits A true + decodeBits B true < -((2 ^ (A.length - 1) : Nat) : Int) ∨
        ((2 ^ (A.length - 1) : Nat) : Int) - 1 < decodeBits A true + decodeBits B true := by
  have hpow : 2 ^ (A.length - 1) * 2 = 2 ^ A.length := Nat.two_pow_pred_mul_two h
  have hA := two_mul_decodeBits_bounds h rfl
  have hB := two_mul_decodeBits_bounds h hlen.symm
  have hsum : 1 ≤ (rippleAdd A B).1.length := h.trans_eq (rippleAdd_length false hlen).symm
  rw [signedOverflow_eq_true_iff, ← decodeBits_neg_iff h, ← decodeBits_neg_iff (h.trans_eq hlen),
    ← decodeBits_neg_iff hsum, decodeBits_rippleAdd h hlen, wrapSigned]
  split_ifs <;> omega

/-- Settles O37: the sum bits are read as the wrapped sum, unless the parameter is set and the sum leaves the range. -/
theorem signedAddition : Obligations.SignedAddition := by
  rintro s ⟨_, A⟩ ⟨_, B⟩ w t d hread rfl rfl rfl (hlen : B.length = A.length) rfl hd
  have hlow := readSeqPair_nonempty hread
  have hoverflow := signedOverflow_iff hlow hlen.symm
  have hdec : decodeBits (rippleAdd A B).1 true = d := (decodeBits_rippleAdd hlow hlen.symm).trans hd.symm
  rw [exec_add_of_readSeqPair hread, addSequences_of_compatible hlow hlen.symm]
  constructor
  · intro hkept
    have hpass : (s.params.signedOvfCheck && signedOverflow A B (rippleAdd A B).1) = false := by
      obtain hoff | ⟨hlo, hhi⟩ := hkept
      · rw [hoff, Bool.false_and]
      · rw [Bool.eq_false_iff.mpr (mt hoverflow.mp (not_or.mpr ⟨hlo.not_gt, hhi.not_gt⟩)), Bool.and_false]
    refine ⟨(rippleAdd A B).1, ?_, rippleAdd_length false hlen.symm, hdec⟩
    rw [if_neg (by simp [hpass]), resultOutputs_deriveSequence (rippleAdd_length false hlen.symm), hdec]
    rfl
  · intro hon hout
    rw [if_pos (by simp [hon, hoverflow.mpr hout])]
    rfl

/-- Settles O39: signed operands pass no test, and the difference bits are read as the wrapped difference. -/
theorem signedSubtraction : Obligations.SignedSubtraction := by
  rintro s ⟨_, A⟩ ⟨_, B⟩ w t hread rfl rfl rfl (hlen : B.length = A.length) rfl
  have hlow := readSeqPair_nonempty hread
  refine ⟨(rippleSubtract A B).1, _, ?_, rippleSubtract_length hlen.symm, rfl, decodeBits_rippleSubtract hlow hlen.symm⟩
  rw [exec_sub_of_readSeqPair hread, subSequences_of_compatible hlow hlen.symm, if_neg (by simp),
    resultOutputs_deriveSequence (rippleSubtract_length hlen.symm)]
  rfl

end Signed

end Sys2Proof.Machine

/-! # The comparison operators: equality of the triples and the numeric order (44_comparison.md) -/

namespace Sys2Proof.Machine

/-! ## What EQ, GT and LT answer once their operands are read -/

section ComparisonAnswers

variable {s : State} {x y : SeqOperand}

theorem exec_eq_of_readSeqPair (h : readSeqPair s.params s.req = .ok (x, y)) :
    exec .eq s = .next (s.present (bitOutputs (equalSequences (deriveSequence x) (deriveSequence y)))) :=
  exec_of_readLine (l := .eq x y) (map_line_ok h)

theorem exec_gt_of_readSeqPair (h : readSeqPair s.params s.req = .ok (x, y)) :
    exec .gt s =
      .next (s.present (resultOutputs bitOutputs (greaterThan (deriveSequence x) (deriveSequence y)))) :=
  exec_of_readLine (l := .gt x y) (map_line_ok h)

theorem exec_lt_of_readSeqPair (h : readSeqPair s.params s.req = .ok (x, y)) :
    exec .lt s = .next (s.present (resultOutputs bitOutputs (lessThan (deriveSequence x) (deriveSequence y)))) :=
  exec_of_readLine (l := .lt x y) (map_line_ok h)

end ComparisonAnswers

/-! ## The two scans over bits of one length (R180, R182) -/

section Scans

variable {A B : Bits} {sg : Bit}

theorem sameBits_iff (hlen : A.length = B.length) : sameBits A B = true ↔ A = B := by
  induction A generalizing B with
  | nil =>
    obtain rfl := List.length_eq_zero_iff.mp hlen.symm
    exact iff_of_true rfl rfl
  | cons a as ih =>
    cases B with
    | nil => cases hlen
    | cons b bs =>
      by_cases hab : a = b <;> simp [sameBits, hab, ih (Nat.succ.inj hlen)]

/-- The first differing bit outweighs all bits below it, so it decides the order of the values (R183). -/
theorem firstDifference_iff (hlen : A.length = B.length) : firstDifference A B = true ↔ uval B < uval A := by
  induction A generalizing B with
  | nil =>
    obtain rfl := List.length_eq_zero_iff.mp hlen.symm
    simp [firstDifference]
  | cons a as ih =>
    cases B with
    | nil => cases hlen
    | cons b bs =>
      have htail : as.length = bs.length := Nat.succ.inj hlen
      rw [firstDifference, uval_cons, uval_cons, ← htail]
      by_cases hab : a = b
      · rw [if_neg (by simpa using hab), ih htail, hab, Nat.add_lt_add_iff_left]
      · have has := uval_lt as
        have hbs : uval bs < 2 ^ as.length := (uval_lt bs).trans_eq (htail ▸ rfl)
        obtain rfl : b = !a := Bool.eq_not.mpr (Ne.symm hab)
        rw [if_pos (by simp)]
        cases a <;> simp <;> omega

/-- DEC tells the patterns of one width apart, because ENC undoes it (R181, R125). -/
theorem decodeBits_inj (h : 1 ≤ A.length) (hlen : A.length = B.length) :
    decodeBits A sg = decodeBits B sg ↔ A = B := by
  refine ⟨fun hdec => ?_, fun hbits => hbits ▸ rfl⟩
  rw [← encodeInt_decodeBits h sg, hdec, hlen, encodeInt_decodeBits (h.trans_eq hlen) sg]

/-- Where no sign bit tells them apart, the decimals of one width differ from the values of the bits by one constant
(R183). -/
theorem decodeBits_lt_iff_of_msb_eq (h : 1 ≤ A.length) (hlen : A.length = B.length)
    (hmsb : sg = true → msb A = msb B) : decodeBits B sg < decodeBits A sg ↔ uval B < uval A := by
  rw [decodeBits_eq h, decodeBits_eq (h.trans_eq hlen), hlen]
  by_cases hneg : sg = true ∧ msb A = true
  · rw [if_pos hneg, if_pos ⟨hneg.1, hmsb hneg.1 ▸ hneg.2⟩]
    omega
  · rw [if_neg hneg, if_neg fun hB => hneg ⟨hB.1, (hmsb hB.1).trans hB.2⟩]
    omega

/-- Of two signed operands with different signs the one with the sign bit set is the smaller (R182). -/
theorem decodeBits_lt_iff_of_msb_ne (h : 1 ≤ A.length) (hlen : A.length = B.length) (hmsb : msb A ≠ msb B) :
    decodeBits B true < decodeBits A true ↔ msb A = false := by
  rw [ne_eq, Bool.eq_iff_iff, ← decodeBits_neg_iff h, ← decodeBits_neg_iff (h.trans_eq hlen)] at hmsb
  rw [← Bool.not_eq_true, ← decodeBits_neg_iff h]
  omega

end Scans

/-! ## The functions on operands (R180 to R184) -/

section Compare

variable {x y : SeqOperand}

/-- EQ is equality of the triples, the width being the length of the bits (R181). -/
theorem equalSequences_deriveSequence :
    equalSequences (deriveSequence x) (deriveSequence y) = decide (x = y) := by
  rw [Bool.eq_iff_iff, decide_eq_true_iff, equalSequences]
  split
  case isTrue hcompat =>
    obtain ⟨hsigned, hlen⟩ := compatible_deriveSequence.mp hcompat
    rw [SeqOperand.mk.injEq, and_iff_right hsigned]
    exact sameBits_iff hlen
  case isFalse hcompat =>
    refine iff_of_false Bool.false_ne_true ?_
    rintro rfl
    exact hcompat (compatible_deriveSequence.mpr ⟨rfl, rfl⟩)

theorem eq_iff_decodeBits_eq (h : 1 ≤ x.bits.length) (hsigned : x.signed = y.signed)
    (hlen : x.bits.length = y.bits.length) :
    x = y ↔ decodeBits x.bits x.signed = decodeBits y.bits y.signed := by
  rw [SeqOperand.mk.injEq, and_iff_right hsigned, ← hsigned, decodeBits_inj h hlen]

/-- GT is the numeric order of compatible operands (R183). -/
theorem greaterThan_of_compatible (h : 1 ≤ x.bits.length) (hsigned : x.signed = y.signed)
    (hlen : x.bits.length = y.bits.length) :
    greaterThan (deriveSequence x) (deriveSequence y) =
      .ok (decide (decodeBits y.bits y.signed < decodeBits x.bits x.signed)) := by
  obtain ⟨sg, A⟩ := x
  obtain ⟨_, B⟩ := y
  obtain rfl : sg = _ := hsigned
  rw [greaterThan, if_pos (compatible_of_length sg hlen)]
  change (if sg && (msb A != msb B) then Except.ok (!msb A) else .ok (firstDifference A B)) = _
  split
  case isTrue hsigns =>
    obtain ⟨rfl, hmsb⟩ : sg = true ∧ msb A ≠ msb B := by simpa using hsigns
    simp only [decodeBits_lt_iff_of_msb_ne h hlen hmsb, Bool.decide_eq_false]
  case isFalse hsigns =>
    have hmsb : sg = true → msb A = msb B := by simpa using hsigns
    simp only [decodeBits_lt_iff_of_msb_eq h hlen hmsb, ← firstDifference_iff hlen, Bool.decide_eq_true]

theorem greaterThan_of_incompatible (h : x.signed ≠ y.signed ∨ x.bits.length ≠ y.bits.length) :
    greaterThan (deriveSequence x) (deriveSequence y) = .error .incompatibleOperands :=
  if_neg (mt compatible_deriveSequence.mp (not_and_or.mpr h))

theorem lessThan_of_greaterThan_ok {x y : BitSequence} {g : Bit} (h : greaterThan x y = .ok g) :
    lessThan x y = .ok (!g && !equalSequences x y) := by
  rw [lessThan, h]
  rfl

theorem lessThan_of_greaterThan_error {x y : BitSequence} {e : Error} (h : greaterThan x y = .error e) :
    lessThan x y = .error e := by
  rw [lessThan, h]
  rfl

/-- Neither greater nor equal is less (R184, R185). -/
theorem lessThan_of_compatible (h : 1 ≤ x.bits.length) (hsigned : x.signed = y.signed)
    (hlen : x.bits.length = y.bits.length) :
    lessThan (deriveSequence x) (deriveSequence y) =
      .ok (decide (decodeBits x.bits x.signed < decodeBits y.bits y.signed)) := by
  rw [lessThan_of_greaterThan_ok (greaterThan_of_compatible h hsigned hlen), equalSequences_deriveSequence]
  refine congrArg Except.ok (Bool.eq_iff_iff.mpr ?_)
  simp only [eq_iff_decodeBits_eq h hsigned hlen, Bool.and_eq_true, Bool.not_eq_true', decide_eq_false_iff_not,
    decide_eq_true_iff]
  omega

end Compare

/-! ## The requests (R181, R183, R185) -/

/-- Exactly one of greater, equal and less holds of two integers. -/
theorem trichotomy_toNat (m n : Int) :
    (decide (n < m)).toNat + (decide (m = n)).toNat + (decide (m < n)).toNat = 1 := by
  obtain h | rfl | h := lt_trichotomy m n
  · simp [h, h.ne, h.le]
  · simp
  · simp [h, h.ne', h.le]

/-- Settles O41: EQ compares the triples, and DEC is injective on patterns of one width. -/
theorem equalityOfValues : Obligations.EqualityOfValues := by
  refine ⟨decode_encode .eq, fun s x y hread => ⟨?_, eq_iff_decodeBits_eq (readSeqPair_nonempty hread)⟩⟩
  rw [exec_eq_of_readSeqPair hread, equalSequences_deriveSequence]
  rfl

/-- Settles O42: the sign bits, then the first differing bit, decide the order of the decimals. -/
theorem greaterThanIsNumericOrder : Obligations.GreaterThanIsNumericOrder := by
  intro s x y hread hsigned hlen
  rw [exec_gt_of_readSeqPair hread, greaterThan_of_compatible (readSeqPair_nonempty hread) hsigned hlen]
  rfl

/-- Settles O43: on compatible operands the three answers are the three cases of the order of the decimals, and LT's
case is GT's of the swapped pair; on others GT's error is LT's, and the triples differ. -/
theorem comparisonTrichotomy : Obligations.ComparisonTrichotomy := by
  refine fun s x y hread => ⟨fun ⟨hsigned, hlen⟩ => ?_, fun hincompat => ⟨?_, ?_, ?_⟩⟩
  · have hlow := readSeqPair_nonempty hread
    refine ⟨_, _, decide (decodeBits x.bits x.signed < decodeBits y.bits y.signed),
      greaterThanIsNumericOrder s x y hread hsigned hlen, (equalityOfValues.2 s x y hread).1, ?_, ?_,
      decide_eq_true_iff, fun s' hswap => greaterThanIsNumericOrder s' y x hswap hsigned.symm hlen.symm⟩
    · rw [exec_lt_of_readSeqPair hread, lessThan_of_compatible hlow hsigned hlen]
      rfl
    · simp only [eq_iff_decodeBits_eq hlow hsigned hlen]
      exact trichotomy_toNat _ _
  · rw [exec_gt_of_readSeqPair hread, greaterThan_of_incompatible hincompat]
    rfl
  · rw [exec_lt_of_readSeqPair hread, lessThan_of_greaterThan_error (greaterThan_of_incompatible hincompat)]
    rfl
  · have hne : x ≠ y := by
      rintro rfl
      exact hincompat.elim (· rfl) (· rfl)
    rw [(equalityOfValues.2 s x y hread).1, decide_eq_false hne]

end Sys2Proof.Machine

/-! # The exceptions: which errors each operation can present (60_exceptions.md) -/

namespace Sys2Proof.Machine

/-! ## The status of a line's outputs stays in its operation's row (R208) -/

section Statuses

variable {α : Type} {p : Params} {l : Line}

/-- An operation's row of the error matrix (R208), as the status codes that it can present (R63). -/
def statusRow : Instr → List (BitVec 4)
  | .xor | .hadd | .fadd | .radd | .tcn | .rsub | .newb => [0#4, 1#4]
  | .inv | .enc | .dec | .bounds | .tostr | .toint | .bits | .eq => [0#4]
  | .rchk | .newi => [0#4, 4#4]
  | .news => [0#4, 2#4, 3#4]
  | .add => [0#4, 5#4, 6#4]
  | .sub => [0#4, 5#4, 7#4]
  | .gt | .lt => [0#4, 5#4]

theorem statusOk_mem_statusRow (i : Instr) : statusOk ∈ statusRow i := by
  cases i <;> exact List.mem_cons_self

/-- A result's status is in the row when the codes of all its errors are. -/
theorem resultOutputs_st_mem {drive : α → Outputs} {x : Except Error α} {i : Instr}
    (hok : ∀ v, (drive v).st = some statusOk) (herr : Raises (fun e => errorCode e ∈ statusRow i) x) :
    ∃ c ∈ statusRow i, (resultOutputs drive x).st = some c := by
  cases x with
  | ok v => exact ⟨statusOk, statusOk_mem_statusRow i, hok v⟩
  | error e => exact ⟨errorCode e, herr e rfl, errorOutputs_st e⟩

/-- Each result raises errors of its operation's row alone; an operand's width rules out that the check on given bits
fails (R108). -/
theorem lineOutputs_st_mem (hwf : l.wf p = true) : ∃ c ∈ statusRow l.instr, (lineOutputs p l).st = some c := by
  cases l with
  | inv | enc | dec | bounds | tostr | toint | bits | eq => exact ⟨statusOk, statusOk_mem_statusRow _, rfl⟩
  | xor a b => exact resultOutputs_st_mem (i := .xor) (fun _ => rfl) (xorRaw_raises (by decide) a b)
  | hadd a b => exact resultOutputs_st_mem (i := .hadd) (fun _ => rfl) (halfAdderRaw_raises (by decide) a b)
  | fadd c a b => exact resultOutputs_st_mem (i := .fadd) (fun _ => rfl) (fullAdderRaw_raises (by decide) c a b)
  | radd a b c => exact resultOutputs_st_mem (i := .radd) (fun _ => rfl) (rippleAddRaw_raises (by decide) a b c)
  | tcn a => exact resultOutputs_st_mem (i := .tcn) (fun _ => rfl) (twosComplementRaw_raises (by decide) a)
  | rsub a b => exact resultOutputs_st_mem (i := .rsub) (fun _ => rfl) (rippleSubtractRaw_raises (by decide) a b)
  | rchk v w sg =>
    have hrange : 4#4 ∈ statusRow .rchk := by decide
    exact resultOutputs_st_mem (fun _ => rfl) (rangeCheck_raises hrange)
  | newi n w sg =>
    have hrange : 4#4 ∈ statusRow .newi := by decide
    exact resultOutputs_st_mem (fun _ => rfl) (newFromInt_raises hrange)
  | news t w sg =>
    have hw := (widthFits_iff.mp hwf).1
    exact resultOutputs_st_mem (i := .news) (fun _ => rfl) (newFromString_raises (by decide) (by decide) hw sg)
  | newb b sg =>
    have hlen := (widthFits_iff.mp hwf).1
    exact resultOutputs_st_mem (i := .newb) (fun _ => rfl) (newFromBits_raises (by decide) hlen sg)
  | add x y =>
    have hlen := (widthFits_iff.mp (Bool.and_eq_true_iff.mp hwf).1).1
    exact resultOutputs_st_mem (i := .add) (fun _ => rfl) (addSequences_raises (by decide) (by decide) hlen)
  | sub x y =>
    have hlen := (widthFits_iff.mp (Bool.and_eq_true_iff.mp hwf).1).1
    exact resultOutputs_st_mem (i := .sub) (fun _ => rfl) (subSequences_raises (by decide) (by decide) hlen)
  | gt x y => exact resultOutputs_st_mem (i := .gt) (fun _ => rfl) (greaterThan_raises (by decide) _ _)
  | lt x y => exact resultOutputs_st_mem (i := .lt) (fun _ => rfl) (lessThan_raises (by decide) _ _)

end Statuses

/-! ## InvalidBitError needs a raw bit that is no strict Boolean (R201, R208 "port") -/

section Strictness

variable {p : Params} {r : Request} {l : Line}

/-- The raw bits among a line's operands; an operation without InvalidBitError has none. That the bits other than strict
Booleans come from the bit ports is `other_mem_ports_of_readLine`. -/
def rawOperands : Line → List RawBit
  | .xor a b | .hadd a b => [a, b]
  | .fadd c a b => [c, a, b]
  | .radd a b c => c :: (a ++ b)
  | .tcn a | .newb a _ => a
  | .rsub a b => a ++ b
  | _ => []

theorem eq_bool_of_ne_other {a : RawBit} (h : .other ≠ a) : ∃ b, a = .bool b := by
  cases a with
  | bool b => exact ⟨b, rfl⟩
  | other => exact absurd rfl h

theorem eq_rawBits_of_other_not_mem {v : List RawBit} (h : .other ∉ v) : ∃ b, v = rawBits b := by
  cases hv : strictBits? v with
  | some b => exact ⟨b, strictBits?_eq_some_iff.mp hv⟩
  | none => exact absurd (strictBits?_eq_none_iff.mp hv) h

/-- An operation that has InvalidBitError has no other error, so it completes on strict operands. -/
theorem lineOutputs_st_of_strict (hwf : l.wf p = true) (hrow : 1#4 ∈ statusRow l.instr)
    (hstrict : .other ∉ rawOperands l) : (lineOutputs p l).st = some statusOk := by
  cases l with
  | xor a b | hadd a b =>
    obtain ⟨ha, hb⟩ : .other ≠ a ∧ .other ≠ b := by simpa [rawOperands] using hstrict
    obtain ⟨x, rfl⟩ := eq_bool_of_ne_other ha
    obtain ⟨y, rfl⟩ := eq_bool_of_ne_other hb
    rfl
  | fadd c a b =>
    obtain ⟨hc, ha, hb⟩ : .other ≠ c ∧ .other ≠ a ∧ .other ≠ b := by simpa [rawOperands] using hstrict
    obtain ⟨z, rfl⟩ := eq_bool_of_ne_other hc
    obtain ⟨x, rfl⟩ := eq_bool_of_ne_other ha
    obtain ⟨y, rfl⟩ := eq_bool_of_ne_other hb
    rfl
  | radd a b c =>
    obtain ⟨hc, ha, hb⟩ : .other ≠ c ∧ .other ∉ a ∧ .other ∉ b := by simpa [rawOperands] using hstrict
    obtain ⟨z, rfl⟩ := eq_bool_of_ne_other hc
    obtain ⟨x, rfl⟩ := eq_rawBits_of_other_not_mem ha
    obtain ⟨y, rfl⟩ := eq_rawBits_of_other_not_mem hb
    rw [lineOutputs, rippleAddRaw_ok_iff.mpr ⟨x, y, z, rfl, rfl, rfl, rfl⟩]
    rfl
  | tcn a =>
    obtain ⟨x, rfl⟩ := eq_rawBits_of_other_not_mem hstrict
    rw [lineOutputs, twosComplementRaw_ok_iff.mpr ⟨x, rfl, rfl⟩]
    rfl
  | rsub a b =>
    obtain ⟨ha, hb⟩ : .other ∉ a ∧ .other ∉ b := by simpa [rawOperands] using hstrict
    obtain ⟨x, rfl⟩ := eq_rawBits_of_other_not_mem ha
    obtain ⟨y, rfl⟩ := eq_rawBits_of_other_not_mem hb
    rw [lineOutputs, rippleSubtractRaw_ok_iff.mpr ⟨x, y, rfl, rfl, rfl⟩]
    rfl
  | newb b sg =>
    obtain ⟨v, rfl⟩ := eq_rawBits_of_other_not_mem hstrict
    rw [lineOutputs, newFromBits_rawBits (by simpa using (widthFits_iff.mp hwf).1)]
    rfl
  | _ => simp [statusRow, Line.instr] at hrow

/-- A wire that the list of a bus does not reach is at level 0, a strict Boolean (log 11). -/
theorem other_mem_of_mem_takeWires {w : Nat} {bus : List RawBit} (h : .other ∈ takeWires w bus) : .other ∈ bus := by
  obtain ⟨k, -, hk⟩ : ∃ k < w, bus.getD k (.bool false) = .other := by simpa [takeWires] using h
  by_cases hlt : k < bus.length
  · rw [List.getD_eq_getElem _ _ hlt] at hk
    exact hk ▸ List.getElem_mem hlt
  · rw [List.getD_eq_default _ _ (not_lt.mp hlt)] at hk
    cases hk

theorem other_mem_of_mem_readRawX {a : List RawBit} (h : readRawX p r = .ok a) (ha : .other ∈ a) : .other ∈ r.xb := by
  obtain ⟨-, -, rfl⟩ := readRawX_ok_iff.mp h
  exact other_mem_of_mem_takeWires ha

theorem other_mem_of_mem_readRawY {a : List RawBit} (h : readRawY p r = .ok a) (ha : .other ∈ a) : .other ∈ r.yb := by
  obtain ⟨-, -, rfl⟩ := readRawY_ok_iff.mp h
  exact other_mem_of_mem_takeWires ha

theorem other_mem_of_mem_readRawPair {ab : List RawBit × List RawBit} (h : readRawPair p r = .ok ab)
    (hab : .other ∈ ab.1 ++ ab.2) : .other ∈ r.xb ++ r.yb := by
  obtain ⟨hx, hy, -⟩ := readRawPair_ok_iff.mp h
  rw [List.mem_append] at hab ⊢
  exact hab.imp (other_mem_of_mem_readRawX hx) (other_mem_of_mem_readRawY hy)

/-- A line made of one operand comes from an operand that was read. -/
theorem map_line_inv {α : Type} {operand : Except Refusal α} {line : α → Line} (h : operand.map line = .ok l) :
    ∃ v, operand = .ok v ∧ line v = l := by
  cases operand with
  | ok v => exact ⟨v, rfl, Except.ok.inj h⟩
  | error e => cases h

/-- A raw operand is no strict Boolean only if a bit port carries such a thing. -/
theorem other_mem_ports_of_readLine (h : readLine p r l.instr = .ok l) (hother : .other ∈ rawOperands l) :
    .other ∈ r.a1 :: r.b1 :: r.c1 :: (r.xb ++ r.yb) := by
  cases l with
  | xor | hadd | fadd =>
    cases h
    simp only [rawOperands, List.mem_cons, List.not_mem_nil, or_false] at hother ⊢
    tauto
  | radd =>
    obtain ⟨ab, hread, ⟨⟩⟩ := map_line_inv h
    obtain hc | hab := List.mem_cons.mp hother
    · simp [hc]
    · simp only [List.mem_cons, other_mem_of_mem_readRawPair hread hab, or_true]
  | rsub =>
    obtain ⟨ab, hread, ⟨⟩⟩ := map_line_inv h
    simp only [List.mem_cons, other_mem_of_mem_readRawPair hread hother, or_true]
  | tcn | newb =>
    obtain ⟨_, hread, ⟨⟩⟩ := map_line_inv h
    simp [other_mem_of_mem_readRawX hread hother]
  | _ => cases hother

end Strictness

/-! ## Operands of different width or signedness (R205) -/

section Incompatible

variable {x y : SeqOperand}

theorem addSequences_of_incompatible (h : x.signed ≠ y.signed ∨ x.bits.length ≠ y.bits.length) (ovfCheck : Bool) :
    addSequences ovfCheck (deriveSequence x) (deriveSequence y) = .error .incompatibleOperands :=
  if_neg (mt compatible_deriveSequence.mp (not_and_or.mpr h))

theorem subSequences_of_incompatible (h : x.signed ≠ y.signed ∨ x.bits.length ≠ y.bits.length) :
    subSequences (deriveSequence x) (deriveSequence y) = .error .incompatibleOperands :=
  if_neg (mt compatible_deriveSequence.mp (not_and_or.mpr h))

end Incompatible

/-! ## The requests -/

/-- Settles O45: the line that was read is well formed, so its status is in the row; were every bit port strict, the
operations of InvalidBitError would have completed. -/
theorem errorsPerOperation : Obligations.ErrorsPerOperation := by
  intro i s t hexec
  obtain ⟨l, hread, rfl⟩ := exec_next_iff.mp hexec
  obtain ⟨rfl, hwf⟩ := readLineIsWellFormed s.params s.req i l hread
  obtain ⟨c, hrow, hst⟩ := lineOutputs_st_mem hwf
  refine ⟨c, hst, ?_, ?_⟩
  · cases l <;> exact hrow
  · rintro rfl
    by_contra hports
    have hok := lineOutputs_st_of_strict hwf hrow (mt (other_mem_ports_of_readLine hread) hports)
    exact absurd (hst.symm.trans hok) (by decide)

/-- Settles O40: the compatibility test comes first in ADD, SUB and GT, LT fails with GT, the triples differ for EQ, and
no other row of R208 has the status 5. -/
theorem incompatibleOperands : Obligations.IncompatibleOperands := by
  refine ⟨fun s x y hread hincompat => ?_, fun i hi s t hexec hst => ?_⟩
  · obtain ⟨hgt, hlt, heq⟩ := (comparisonTrichotomy s x y hread).2 hincompat
    have hadd : exec .add s = .next (s.present { Outputs.undriven with st := some 5#4 }) := by
      rw [exec_add_of_readSeqPair hread, addSequences_of_incompatible hincompat]
      rfl
    have hsub : exec .sub s = .next (s.present { Outputs.undriven with st := some 5#4 }) := by
      rw [exec_sub_of_readSeqPair hread, subSequences_of_incompatible hincompat]
      rfl
    simp [hadd, hsub, hgt, hlt, heq]
  · obtain ⟨c, hc, hrow, -⟩ := errorsPerOperation i s t hexec
    obtain rfl : 5#4 = c := Option.some.inj (hst.symm.trans hc)
    cases i with
    | add | sub | gt | lt => simp at hi
    | _ => simp at hrow

end Sys2Proof.Machine
